-- ==== Sys2Proof/Word.lean ====
section
/-! DEFINITION. The widths of the block: a buffer byte, a 16-bit field, a 32-bit command or response word
(00_scope.md R6 and section 5; 30_encoding.md R42, R46). -/

namespace Sys2Proof

/-- `Byte`: an unsigned 8-bit value (`BYTE_W`, R6). -/
abbrev Byte := BitVec 8

/-- `U16`: a header field, an FCS, a table entry, a size, an offset (`FIELD_W`, `POS_W`, R6). -/
abbrev U16 := BitVec 16

/-- A command word or a response word (R42, R46). -/
abbrev Word := BitVec 32

end Sys2Proof
end

