-- ==== Sys2Proof/Config.lean ====
section
/-! DEFINITION. What an implementation of the block fixes: the one open parameter `MAX_FRAME_BYTES` (00_scope.md R6;
92_eei_decisions.md D5). The block has no free value: the spec leaves no result of a command undefined (30_encoding.md
R47). -/

namespace Sys2Proof.Config

/-- The default of `MAX_FRAME_BYTES`, the value of the field `State.maxFrameBytes` after reset (R6; log entry 1). -/
def defaultMaxFrameBytes : U16 := 65535#16

/-- The least `MAX_FRAME_BYTES` an implementation may have: `10 <= MAX_FRAME_BYTES <= 65535` (R6). -/
def leastMaxFrameBytes : U16 := 10#16

end Sys2Proof.Config
end

