-- ==== Sys2Proof/Machine/State.lean ====
section
/-! DEFINITION. The state of the block as plain data (10_state.md section 1), the command interface around it
(30_encoding.md R41), and the state after reset (10_state.md R21). -/

namespace Sys2Proof.Machine

/-- The frame space: cells (position, byte), positions strictly rising. A position that is not listed holds no byte
(10_state.md R9; 20_memory.md R27; log entry 5). -/
abbrev Memory := List Host.Cell

/-- The error kinds a command can answer with (60_exceptions.md section 2). MalformedFrame is also the source's
OutOfRange (R80). ChecksumMismatch is no kind of the block (R81). -/
inductive ErrorKind where
  /-- Code 1 (R78). -/
  | malformedFrame
  /-- Code 2 (R79). -/
  | invalidOffset
  /-- Code 4 (R82). -/
  | illegalCommand
  /-- Code 5 (R83). -/
  | capacityExceeded
  deriving DecidableEq, Repr

/-- A Response: `Ok(result, dout)` or `Err(kind)`; an `Err` carries no value (00_scope.md R7; 30_encoding.md R46). -/
inductive Response where
  | ok (result : U16) (dout : List Byte)
  | err (kind : ErrorKind)
  deriving DecidableEq, Repr

/-- What the host does to the block next (70_reset_and_hazards.md R99): a command word on the command channel, any of
the 2^32, or the reset event (R92). -/
inductive HostEvent where
  | command (word : Word)
  | reset
  deriving DecidableEq, Repr

/-- The machine's state. `buf` and `size` are the block's whole mutable state (10_state.md section 1, R13); `maxFrameBytes`
is its parameter (00_scope.md R6); the rest is the command interface and the run (30_encoding.md R41; 10_state.md R16;
70_reset_and_hazards.md R98), which no command's effect depends on. `FCS_TABLE` is the constant
`Sys2Proof.Machine.fcsTable` (70_reset_and_hazards.md R93). -/
structure State where
  /-- `MAX_FRAME_BYTES`; written by nothing (R6; log entry 1). -/
  maxFrameBytes : U16
  /-- `BUF` (R9). -/
  buf : Memory
  /-- `SIZE` (R10). -/
  size : U16
  /-- What the host still does, in issue order (R16, R99; log entry 2). -/
  hostEvents : List HostEvent
  /-- The data-in channel, next byte first (R41, R45; log entry 2). -/
  dataIn : List Byte
  /-- The index of the next command (R16). -/
  k : Nat
  /-- The response channel, oldest first (R41, R98; log entry 2). -/
  responses : List Response
  deriving DecidableEq, Repr

/-- How a step can stop. None of these is an error of the block: its errors are Responses (60_exceptions.md R77). -/
inductive Fault where
  /-- Raised by `step` when the host's list is exhausted: the run is over (70_reset_and_hazards.md R98; log entry 3).
  Safe. -/
  | endOfRun
  /-- Raised by `step` when a data phase has fewer bytes on the data-in channel than `arg` says: stuck
  (93_implementation_defined.md list 2; log entry 4). Safe. -/
  | dataPhaseIncomplete
  /-- Raised by a meaning that would read a frame position holding no byte; never in a state that meets `State.Inv`
  (20_memory.md R27; log entry 5). Safe. -/
  | undefinedPosition
  deriving DecidableEq, Repr

/-- What the model does not run. -/
inductive Refusal where
  /-- Raised by `exec` for an instruction without a meaning; no arm does. Safe. -/
  | notModelled (mnemonic : String)
  deriving DecidableEq, Repr

/-- The machine right after reset: the empty frame (10_state.md R21; 70_reset_and_hazards.md R92), the default capacity
(00_scope.md R6), and a host that has sent nothing yet (log entry 2). -/
def State.reset : State where
  maxFrameBytes := Config.defaultMaxFrameBytes
  buf := []
  size := 0#16
  hostEvents := []
  dataIn := []
  k := 0
  responses := []

end Sys2Proof.Machine
end

