-- ==== Sys2Proof/Machine/Ops.lean ====
section
/-! DEFINITION. The named operations over the frame buffer and the response channel: byte order (20_memory.md R23, R24),
bounded reads (R27), the one write of a whole frame (10_state.md R12), answering, raising an error (60_exceptions.md R77)
and the reset event (70_reset_and_hazards.md R92). There is no return from an error (60_exceptions.md R87). -/

namespace Sys2Proof.Machine

/-! ## Byte order (20_memory.md R23, R24) -/

/-- `lo8(v) = v[7:0]`. -/
def lo8 (v : U16) : Byte := v.extractLsb' 0 8

/-- `hi8(v) = v[15:8]`. -/
def hi8 (v : U16) : Byte := v.extractLsb' 8 8

/-- `zext_16(b)`. -/
def zext16 (b : Byte) : U16 := b.setWidth 16

/-- `zext_16(lo) | (zext_16(hi) << 8)` (R23). -/
def le16 (lo hi : Byte) : U16 := zext16 lo ||| (zext16 hi <<< 8)

/-- The two bytes a 16-bit value is written as, low byte first (R24). -/
def le16Bytes (v : U16) : List Byte := [lo8 v, hi8 v]

/-! ## The frame space -/

/-- The byte at a position, if one is listed. -/
def Memory.read : Memory → Nat → Option Byte
  | [], _ => none
  | (a, b) :: m, p => if a = p then some b else Memory.read m p

/-- The canonical form: positions strictly rising. No entry can equal what an unlisted position reads as, since that
is nothing. -/
def Memory.wf : Memory → Bool
  | [] => true
  | [_] => true
  | c :: d :: m => decide (c.1 < d.1) && Memory.wf (d :: m)

/-- Bytes written to consecutive positions from `base` of a buffer that holds none: the constructors' writes
`BUF[i] <- d[i]` in position order (40_construction.md R50, R51). -/
def Memory.fill (base : Nat) : List Byte → Memory
  | [] => []
  | b :: bs => (base, b) :: Memory.fill (base + 1) bs

/-- The abstract frame, `BUF[0..SIZE)` as a byte sequence (10_state.md section 1). -/
def State.frame (s : State) : List Byte := s.buf.map Prod.snd

/-- `BUF[p]`, which exists only for `p < SIZE` (10_state.md R9; 20_memory.md R27). -/
def State.readByte (s : State) (p : Nat) : Option Byte :=
  if p < s.size.toNat then s.buf.read p else none

/-- `MemRead(p, 2) = le16(p)` (20_memory.md R23, R25). -/
def State.readLe16 (s : State) (p : Nat) : Option U16 :=
  match s.readByte p, s.readByte (p + 1) with
  | some lo, some hi => some (le16 lo hi)
  | _, _ => none

/-- `BUF[p .. p+n)`, byte by byte in position order. -/
def State.readRange (s : State) : Nat → Nat → Option (List Byte)
  | _, 0 => some []
  | p, n + 1 =>
    match s.readByte p, s.readRange (p + 1) n with
    | some b, some bs => some (b :: bs)
    | _, _ => none

/-- The one indivisible write of a frame: all of `BUF[0..SIZE)` and `SIZE`, with nothing left of the frame before
(10_state.md R12, R20; 20_memory.md R29). -/
def State.loadFrame (s : State) (bytes : List Byte) : State :=
  { s with buf := Memory.fill 0 bytes, size := BitVec.ofNat 16 bytes.length }

/-- The reset event's effect: the empty frame, and no other effect (70_reset_and_hazards.md R92; log entry 6). -/
def State.resetEvent (s : State) : State := { s with buf := [], size := 0#16 }

/-! ## Responses -/

/-- A command ends: exactly one Response goes out, and the index advances by exactly 1, whatever the status
(30_encoding.md R41; 10_state.md R16). -/
def State.respond (s : State) (r : Response) : State :=
  { s with responses := s.responses ++ [r], k := s.k + 1 }

/-- `return (v, d)`: the command answers `Ok`. -/
def answer (v : U16) (d : List Byte) (s : State) : Host.Outcome State Fault Refusal :=
  .next (s.respond (.ok v d))

/-- `raise K`: the one way an error is taken. It saves nothing, changes no part of the frame and transfers control
nowhere (60_exceptions.md R77, R85, R86). -/
def raise (e : ErrorKind) (s : State) : Host.Outcome State Fault Refusal :=
  .next (s.respond (.err e))

end Sys2Proof.Machine
end

