-- ==== Sys2Proof/Machine/Operands.lean ====
section
/-! DEFINITION. The operand forms: a field at a fixed position (41_field_accessors.md R54), the position of the trailer
(30_encoding.md R37), and the header offset with its check (42_payload_extent.md R62). The byte-sequence operand of a
constructor comes with the command (30_encoding.md R45). -/

namespace Sys2Proof.Machine

/-- The least size of a well-formed frame: four header fields and the FCS (10_state.md R19). -/
def wellFormedSize : U16 := 10#16

/-- The trailer's size, and so the least size of a frame that has one (30_encoding.md R37). -/
def trailerSize : U16 := 2#16

/-- The size check of the header accessors (R54). -/
def headerError (s : State) : Option ErrorKind :=
  if s.size < wellFormedSize then some .malformedFrame else none

/-- The size check of the trailer-relative commands (41_field_accessors.md R59; 42_payload_extent.md R63; 43_fcs.md R70). -/
def trailerError (s : State) : Option ErrorKind :=
  if s.size < trailerSize then some .malformedFrame else none

/-- `SIZE - 2`: the payload's end, the first FCS byte, the length of the FCS window. Used only after the check that
`SIZE >= 2` (43_fcs.md R76). -/
def State.trailerPos (s : State) : U16 := s.size - trailerSize

/-- The header offset's check: MalformedFrame first, then the bound (42_payload_extent.md R62; 60_exceptions.md R84). -/
def offsetError (offset : U16) (s : State) : Option ErrorKind :=
  if s.size < trailerSize then some .malformedFrame
  else if s.trailerPos < offset then some .invalidOffset
  else none

/-- A command whose check is `e` and whose result, when the check passes, is the 16-bit field at position `p`. -/
def answerField (e : Option ErrorKind) (p : Nat) (s : State) : Host.Outcome State Fault Refusal :=
  match e with
  | some kind => raise kind s
  | none =>
    match s.readLe16 p with
    | some v => answer v [] s
    | none => .fault .undefinedPosition

/-- `HEADER_FIELD(off)` (R54). -/
def headerField (off : Nat) (s : State) : Host.Outcome State Fault Refusal :=
  answerField (headerError s) off s

end Sys2Proof.Machine
end

