-- ==== Sys2Proof/Machine/Accessors.lean ====
section
/-! DEFINITION. The six field accessors (41_field_accessors.md). None writes the frame (R61). -/

namespace Sys2Proof.Machine

/-- LENGTH (R55): the SDU length field at position 0, raw. -/
def execLength (s : State) : Host.Outcome State Fault Refusal := headerField 0 s

/-- CHANNEL_ID (R56): the field at position 2. -/
def execChannelId (s : State) : Host.Outcome State Fault Refusal := headerField 2 s

/-- TOTAL_L2CAP_LENGTH (R57): the field at position 4. -/
def execTotalL2capLength (s : State) : Host.Outcome State Fault Refusal := headerField 4 s

/-- CONTROLS (R58): the field at position 6, no bit of it interpreted. -/
def execControls (s : State) : Host.Outcome State Fault Refusal := headerField 6 s

/-- STORED_FCS (R59): the field at `SIZE - 2`; its threshold is 2. -/
def execStoredFcs (s : State) : Host.Outcome State Fault Refusal :=
  answerField (trailerError s) s.trailerPos.toNat s

/-- BUFFER_SIZE (R60): `SIZE`; never fails. -/
def execBufferSize (s : State) : Host.Outcome State Fault Refusal := answer s.size [] s

end Sys2Proof.Machine
end

