-- ==== Sys2Proof/Machine/Flags.lean ====
section
/-! DEFINITION. The block has no flags (10_state.md R17). A command's status is part of its Response only: the status
codes, the response word and the bytes on the response channel (30_encoding.md R41, R46). -/

namespace Sys2Proof.Machine

/-- The code of an error kind (60_exceptions.md section 2; 30_encoding.md R46). -/
def ErrorKind.code : ErrorKind → BitVec 3
  | .malformedFrame => 1#3
  | .invalidOffset => 2#3
  | .illegalCommand => 4#3
  | .capacityExceeded => 5#3

/-- The code reserved for the host's ChecksumMismatch condition; no Response has it (60_exceptions.md R81). -/
def checksumMismatchCode : BitVec 3 := 3#3

/-- The `status` field: 0 for `Ok` (R46). -/
def Response.status : Response → BitVec 3
  | .ok _ _ => 0#3
  | .err e => e.code

/-- What the `result` field of the response word carries: the result, or 0 driven at the pins of a failing command,
which is not a result (R46; 91_not_in_source.md N25). -/
def Response.resultField : Response → U16
  | .ok v _ => v
  | .err _ => 0#16

/-- The slice bytes that follow the response word (R46). -/
def Response.dout : Response → List Byte
  | .ok _ d => d
  | .err _ => []

/-- The response word: `result` in 15:0, `status` in 18:16, zero above (R46). -/
def Response.word (r : Response) : Word := r.resultField.setWidth 32 ||| (r.status.setWidth 32 <<< 16)

/-- A Response as bytes: the word, least significant byte first, then the slice bytes (R41). -/
def Response.bytes (r : Response) : List Byte :=
  [r.word.extractLsb' 0 8, r.word.extractLsb' 8 8, r.word.extractLsb' 16 8, r.word.extractLsb' 24 8] ++ r.dout

/-- The response channel as bytes (R41). -/
def State.responseBytes (s : State) : List Byte := s.responses.flatMap Response.bytes

end Sys2Proof.Machine
end

