-- ==== Sys2Proof/Machine/Construction.lean ====
section
/-! DEFINITION. The constructors NEW and BUILD (40_construction.md), the only commands that write the frame. -/

namespace Sys2Proof.Machine

/-- The trailer BUILD appends: the FCS of the input, low byte first (40_construction.md R51; 20_memory.md R24). -/
def fcsTrailer (p : List Byte) : List Byte := le16Bytes (fcs16 p)

/-- NEW (R50): the bytes become the frame, unchecked; a frame that does not fit is refused (60_exceptions.md R83). -/
def execNew (d : List Byte) (s : State) : Host.Outcome State Fault Refusal :=
  if s.maxFrameBytes.toNat < d.length then raise .capacityExceeded s
  else answer 0#16 [] (s.loadFrame d)

/-- BUILD (R51): the bytes and their FCS become the frame; `n + 2` is compared as a natural number (43_fcs.md R76). -/
def execBuild (p : List Byte) (s : State) : Host.Outcome State Fault Refusal :=
  if s.maxFrameBytes.toNat < p.length + 2 then raise .capacityExceeded s
  else answer 0#16 [] (s.loadFrame (p ++ fcsTrailer p))

end Sys2Proof.Machine
end

