-- ==== Sys2Proof/Machine/FcsCommand.lean ====
section
/-! DEFINITION. COMPUTE_FCS (43_fcs.md R70). -/

namespace Sys2Proof.Machine

/-- COMPUTE_FCS (R70): `fcs16` over the window `BUF[0..SIZE-2)` (R68); it reads no trailer byte and compares nothing
(60_exceptions.md R81). -/
def execComputeFcs (s : State) : Host.Outcome State Fault Refusal :=
  match trailerError s with
  | some kind => raise kind s
  | none =>
    match s.readRange 0 s.trailerPos.toNat with
    | some window => answer (fcs16 window) [] s
    | none => .fault .undefinedPosition

end Sys2Proof.Machine
end

