-- ==== Sys2Proof/Machine/Payload.lean ====
section
/-! DEFINITION. The payload extent commands (42_payload_extent.md). -/

namespace Sys2Proof.Machine

/-- PAYLOAD_START (R62): the position returned is the offset itself. -/
def execPayloadStart (offset : U16) (s : State) : Host.Outcome State Fault Refusal :=
  match offsetError offset s with
  | some kind => raise kind s
  | none => answer offset [] s

/-- PAYLOAD_END (R63): `SIZE - 2`. -/
def execPayloadEnd (s : State) : Host.Outcome State Fault Refusal :=
  match trailerError s with
  | some kind => raise kind s
  | none => answer s.trailerPos [] s

/-- PAYLOAD_SLICE (R64): the count `SIZE - 2 - offset` and that many bytes from `offset`. -/
def execPayloadSlice (offset : U16) (s : State) : Host.Outcome State Fault Refusal :=
  match offsetError offset s with
  | some kind => raise kind s
  | none =>
    match s.readRange offset.toNat (s.trailerPos - offset).toNat with
    | some bytes => answer (s.trailerPos - offset) bytes s
    | none => .fault .undefinedPosition

end Sys2Proof.Machine
end

