-- ==== Sys2Proof/Syntax.lean ====
section
/-! DEFINITION. The closed command set (00_scope.md R5), one constructor per row of spec/opcode_table.json. -/

namespace Sys2Proof

/-- A command with its operands. A constructor's operand is the byte sequence of its data phase (30_encoding.md R45);
the header offset is a 16-bit unsigned operand (R44). -/
inductive Instr where
  /-- NEW, opcode 0x01 (40_construction.md R50). -/
  | new (d : List Byte)
  /-- BUILD, opcode 0x02 (40_construction.md R51). -/
  | build (p : List Byte)
  /-- LENGTH, opcode 0x10 (41_field_accessors.md R55). -/
  | length
  /-- CHANNEL_ID, opcode 0x11 (41_field_accessors.md R56). -/
  | channelId
  /-- TOTAL_L2CAP_LENGTH, opcode 0x12 (41_field_accessors.md R57). -/
  | totalL2capLength
  /-- CONTROLS, opcode 0x13 (41_field_accessors.md R58). -/
  | controls
  /-- STORED_FCS, opcode 0x14 (41_field_accessors.md R59). -/
  | storedFcs
  /-- BUFFER_SIZE, opcode 0x15 (41_field_accessors.md R60). -/
  | bufferSize
  /-- PAYLOAD_START, opcode 0x20 (42_payload_extent.md R62). -/
  | payloadStart (offset : U16)
  /-- PAYLOAD_END, opcode 0x21 (42_payload_extent.md R63). -/
  | payloadEnd
  /-- PAYLOAD_SLICE, opcode 0x22 (42_payload_extent.md R64). -/
  | payloadSlice (offset : U16)
  /-- COMPUTE_FCS, opcode 0x30 (43_fcs.md R70). -/
  | computeFcs
  deriving DecidableEq, Repr

/-- NEW and BUILD, the only commands that write the frame (glossary of 00_scope.md; 10_state.md R12). -/
def Instr.isConstructor : Instr → Bool
  | .new _ | .build _ => true
  | .length | .channelId | .totalL2capLength | .controls | .storedFcs | .bufferSize | .payloadStart _ | .payloadEnd
  | .payloadSlice _ | .computeFcs => false

end Sys2Proof
end

