-- ==== Sys2Proof/Machine/Dispatch.lean ====
section
/-! DEFINITION. `exec`: one arm per command, each one call of its meaning. -/

namespace Sys2Proof.Machine

def exec (i : Instr) (s : State) : Host.Outcome State Fault Refusal :=
  match i with
  | .new d => Sys2Proof.Machine.execNew d s
  | .build p => Sys2Proof.Machine.execBuild p s
  | .length => Sys2Proof.Machine.execLength s
  | .channelId => Sys2Proof.Machine.execChannelId s
  | .totalL2capLength => Sys2Proof.Machine.execTotalL2capLength s
  | .controls => Sys2Proof.Machine.execControls s
  | .storedFcs => Sys2Proof.Machine.execStoredFcs s
  | .bufferSize => Sys2Proof.Machine.execBufferSize s
  | .payloadStart offset => Sys2Proof.Machine.execPayloadStart offset s
  | .payloadEnd => Sys2Proof.Machine.execPayloadEnd s
  | .payloadSlice offset => Sys2Proof.Machine.execPayloadSlice offset s
  | .computeFcs => Sys2Proof.Machine.execComputeFcs s

end Sys2Proof.Machine
end

