-- ==== Sys2Proof/WellFormed.lean ====
section
/-! DEFINITION. Which terms of `Instr` are commands a word can carry: the data phase has `arg` bytes and `arg` has 16
bits (30_encoding.md R42, R44, R45). Offsets need no check: their type has exactly the operand's 16 bits. -/

namespace Sys2Proof

/-- The byte sequence of a constructor has at most 65535 bytes, or its count does not fit `arg` (R44, R45). -/
def Instr.wf : Instr → Bool
  | .new d => decide (d.length < 65536)
  | .build p => decide (p.length < 65536)
  | .length | .channelId | .totalL2capLength | .controls | .storedFcs | .bufferSize | .payloadStart _ | .payloadEnd
  | .payloadSlice _ | .computeFcs => true

end Sys2Proof
end

