-- ==== Sys2Proof/Decode.lean ====
section
/-! DEFINITION. The command word (30_encoding.md R42 to R48): its fields, the data phase, the decoder, which is total and
rejects by name, the opcode rows with their masks, and the encoder. -/

namespace Sys2Proof

/-! ## Fields of the command word (R42) -/

/-- `op = w[7:0]`. -/
def Word.op (w : Word) : Byte := w.extractLsb' 0 8

/-- `arg = w[23:8]`, unsigned, unscaled (R44). -/
def Word.arg (w : Word) : U16 := w.extractLsb' 8 16

/-- `rsv = w[31:24]`, must be 0 (R47). -/
def Word.rsv (w : Word) : Byte := w.extractLsb' 24 8

/-- Whether a data phase follows the word: its `op` is 0x01 or 0x02, whatever the rest of the word (R45). -/
def Word.hasData (w : Word) : Bool := w.op == 0x01#8 || w.op == 0x02#8

/-- How many data bytes follow the word (R45). -/
def Word.dataLen (w : Word) : Nat := if w.hasData then w.arg.toNat else 0

/-- The word's data phase, taken off the front of the data-in bytes; `none` where fewer bytes are there (R45, R48). -/
def takeData (w : Word) (dataIn : List Byte) : Option (List Byte × List Byte) :=
  if w.dataLen ≤ dataIn.length then some (dataIn.take w.dataLen, dataIn.drop w.dataLen) else none

/-! ## The decoder -/

/-- Why bytes are no command. The last three are R47's (b), (a) and (c). -/
inductive Reject where
  /-- Fewer than four bytes. -/
  | truncatedWord
  /-- Fewer data bytes than `arg` says. -/
  | truncatedData
  /-- `rsv` is not 0. -/
  | reservedBits
  /-- `op` is not one of the twelve opcodes. -/
  | undefinedOpcode
  /-- `op` is an operand-less opcode and `arg` is not 0. -/
  | strayOperand
  deriving DecidableEq, Repr

/-- The operand-less command of an opcode (R43). -/
def operandless (op : Byte) : Option Instr :=
  if op = 0x10#8 then some .length
  else if op = 0x11#8 then some .channelId
  else if op = 0x12#8 then some .totalL2capLength
  else if op = 0x13#8 then some .controls
  else if op = 0x14#8 then some .storedFcs
  else if op = 0x15#8 then some .bufferSize
  else if op = 0x21#8 then some .payloadEnd
  else if op = 0x30#8 then some .computeFcs
  else none

/-- The decoding procedure of R48, on a word and its data phase. -/
def decode (w : Word) (data : List Byte) : Except Reject Instr :=
  if w.rsv ≠ 0#8 then .error .reservedBits
  else if w.op = 0x01#8 then .ok (.new data)
  else if w.op = 0x02#8 then .ok (.build data)
  else if w.op = 0x20#8 then .ok (.payloadStart w.arg)
  else if w.op = 0x22#8 then .ok (.payloadSlice w.arg)
  else match operandless w.op with
    | some i => if w.arg = 0#16 then .ok i else .error .strayOperand
    | none => .error .undefinedOpcode

/-- A word from its four bytes, `b0` the least significant (R41). -/
def joinBytes (b0 b1 b2 b3 : Byte) : Word :=
  b0.setWidth 32 ||| (b1.setWidth 32 <<< 8) ||| (b2.setWidth 32 <<< 16) ||| (b3.setWidth 32 <<< 24)

/-- The first four bytes as a word, least significant byte first (R41), and the rest. -/
def takeWord : List Byte → Option (Word × List Byte)
  | b0 :: b1 :: b2 :: b3 :: rest => some (joinBytes b0 b1 b2 b3, rest)
  | _ => none

/-- The first command of a byte string, and the rest of the string (R41, R48). -/
def decodeBytes (bs : List Byte) : Except Reject (Instr × List Byte) :=
  match takeWord bs with
  | none => .error .truncatedWord
  | some (w, after) =>
    match takeData w after with
    | none => .error .truncatedData
    | some (data, rest) =>
      match decode w data with
      | .ok i => .ok (i, rest)
      | .error e => .error e

/-! ## The opcode rows (R43; opcode_table.json) -/

/-- A row of the opcode table: `w` selects it iff `w & mask = value`. -/
structure OpcodeRow where
  mnemonic : String
  mask : Word
  value : Word
  deriving DecidableEq, Repr

/-- The table's selection rule (R43). -/
def OpcodeRow.selects (r : OpcodeRow) (w : Word) : Bool := w &&& r.mask == r.value

/-- The row a command belongs to. -/
def Instr.row : Instr → OpcodeRow
  | .new _ => ⟨"NEW", 0xFF0000FF#32, 0x00000001#32⟩
  | .build _ => ⟨"BUILD", 0xFF0000FF#32, 0x00000002#32⟩
  | .length => ⟨"LENGTH", 0xFFFFFFFF#32, 0x00000010#32⟩
  | .channelId => ⟨"CHANNEL_ID", 0xFFFFFFFF#32, 0x00000011#32⟩
  | .totalL2capLength => ⟨"TOTAL_L2CAP_LENGTH", 0xFFFFFFFF#32, 0x00000012#32⟩
  | .controls => ⟨"CONTROLS", 0xFFFFFFFF#32, 0x00000013#32⟩
  | .storedFcs => ⟨"STORED_FCS", 0xFFFFFFFF#32, 0x00000014#32⟩
  | .bufferSize => ⟨"BUFFER_SIZE", 0xFFFFFFFF#32, 0x00000015#32⟩
  | .payloadStart _ => ⟨"PAYLOAD_START", 0xFF0000FF#32, 0x00000020#32⟩
  | .payloadEnd => ⟨"PAYLOAD_END", 0xFFFFFFFF#32, 0x00000021#32⟩
  | .payloadSlice _ => ⟨"PAYLOAD_SLICE", 0xFF0000FF#32, 0x00000022#32⟩
  | .computeFcs => ⟨"COMPUTE_FCS", 0xFFFFFFFF#32, 0x00000030#32⟩

/-- The twelve rows, in the table's order. -/
def opcodeRows : List OpcodeRow :=
  [Instr.row (.new []), Instr.row (.build []), Instr.row .length, Instr.row .channelId, Instr.row .totalL2capLength,
    Instr.row .controls, Instr.row .storedFcs, Instr.row .bufferSize, Instr.row (.payloadStart 0), Instr.row .payloadEnd,
    Instr.row (.payloadSlice 0), Instr.row .computeFcs]

/-! ## The encoder (R42 to R45) -/

/-- A command word with `op` in bits 7:0, `arg` in bits 23:8, and `rsv = 0` (R42). -/
def packWord (op : Byte) (arg : U16) : Word := op.setWidth 32 ||| (arg.setWidth 32 <<< 8)

/-- The command word of a command; a constructor's `arg` is its byte count (R43, R44). -/
def encodeWord : Instr → Word
  | .new d => packWord 0x01#8 (BitVec.ofNat 16 d.length)
  | .build p => packWord 0x02#8 (BitVec.ofNat 16 p.length)
  | .length => packWord 0x10#8 0#16
  | .channelId => packWord 0x11#8 0#16
  | .totalL2capLength => packWord 0x12#8 0#16
  | .controls => packWord 0x13#8 0#16
  | .storedFcs => packWord 0x14#8 0#16
  | .bufferSize => packWord 0x15#8 0#16
  | .payloadStart offset => packWord 0x20#8 offset
  | .payloadEnd => packWord 0x21#8 0#16
  | .payloadSlice offset => packWord 0x22#8 offset
  | .computeFcs => packWord 0x30#8 0#16

/-- The bytes of a command's data phase (R45). -/
def dataPhase : Instr → List Byte
  | .new d => d
  | .build p => p
  | .length | .channelId | .totalL2capLength | .controls | .storedFcs | .bufferSize | .payloadStart _ | .payloadEnd
  | .payloadSlice _ | .computeFcs => []

/-- The four bytes of a word, least significant byte first (R41). -/
def wordBytes (w : Word) : List Byte :=
  [w.extractLsb' 0 8, w.extractLsb' 8 8, w.extractLsb' 16 8, w.extractLsb' 24 8]

/-- A command as bytes on the wire: the word, then the data phase (R41, R45). -/
def encode (i : Instr) : List Byte := wordBytes (encodeWord i) ++ dataPhase i

/-! ## The opcode table's numbering of an instruction's bits -/

/-- The command word in bits 31..0 of an instruction given as a number of which `nbits` bits are stated. -/
def tableWord (nbits w : Nat) : Word := BitVec.ofNat 32 (w % 2 ^ nbits)

/-- The data phase of that word: the number's bits from 32 upward, byte by byte, zeros where it has none. -/
def tableData (nbits w : Nat) : List Byte :=
  (List.range (tableWord nbits w).dataLen).map fun j => BitVec.ofNat 8 ((w % 2 ^ nbits) >>> (32 + 8 * j))

/-- The instruction the decoder reads from an instruction whose bits are `w`, as the opcode table numbers them. -/
def decodeTableWord (nbits w : Nat) : Option Instr :=
  match decodeBytes (wordBytes (tableWord nbits w) ++ tableData nbits w) with
  | .ok (i, _) => some i
  | .error _ => none

end Sys2Proof
end

