-- ==== Sys2Proof/Machine/Fetch.lean ====
section
/-! DEFINITION. What the block does next: the next entry of the host's list, the word's data phase off the data-in channel,
and the decoder (10_state.md R16; 30_encoding.md R41, R45, R48; 70_reset_and_hazards.md R92, R99). -/

namespace Sys2Proof.Machine

/-- The next move. Each state in it has the host's entry, and the whole data phase, consumed. -/
inductive Fetched where
  /-- The host's list is empty (70_reset_and_hazards.md R98). -/
  | endOfRun
  /-- The reset event comes before the next command (R92). -/
  | reset (s : State)
  /-- The word's data phase is not all there (93_implementation_defined.md list 2). -/
  | starved
  /-- The word is no command; its data phase is consumed and discarded (30_encoding.md R45, R47). -/
  | illegal (s : State)
  /-- A command with its operands. -/
  | command (i : Instr) (s : State)
  deriving DecidableEq, Repr

/-- The state after the first entry of the host's list is taken, with the data-in bytes `d` left. -/
def State.consume (s : State) (d : List Byte) : State :=
  { s with hostEvents := s.hostEvents.tail, dataIn := d }

/-- The next move of the block (R16, R45, R48). -/
def fetch (s : State) : Fetched :=
  match s.hostEvents with
  | [] => .endOfRun
  | .reset :: _ => .reset (s.consume s.dataIn)
  | .command w :: _ =>
    match takeData w s.dataIn with
    | none => .starved
    | some (data, rest) =>
      match decode w data with
      | .error _ => .illegal (s.consume rest)
      | .ok i => .command i (s.consume rest)

/-- The host hands one word and its data phase to the channels, ahead of everything else they hold. -/
def State.issueFirst (s : State) (w : Word) (data : List Byte) : State :=
  { s with hostEvents := .command w :: s.hostEvents, dataIn := data ++ s.dataIn }

end Sys2Proof.Machine
end

