-- ==== Sys2Proof/Machine/Step.lean ====
section
/-! DEFINITION. One step: the next entry of the host's list, executed whole (20_memory.md R29, R31). -/

namespace Sys2Proof.Machine

/-- One command, illegal word or reset event, in issue order. An error never stops the block (60_exceptions.md R87). -/
def step (s : State) : Host.Outcome State Fault Refusal :=
  match fetch s with
  | .endOfRun => .fault .endOfRun
  | .starved => .fault .dataPhaseIncomplete
  | .reset t => .next t.resetEvent
  | .illegal t => raise .illegalCommand t
  | .command i t => exec i t

/-- `s` with the instruction whose bits are `w` (numbered as the opcode table does) as the next one the host issues,
its data phase on the data-in channel (log entry 2). -/
def State.withFetchWord (s : State) (nbits w : Nat) : State :=
  s.issueFirst (tableWord nbits w) (tableData nbits w)

end Sys2Proof.Machine
end

