-- ==== Sys2Proof/Machine/HostSide.lean ====
section
/-! DEFINITION. The host's side of the interface as far as the spec gives it: issuing commands (30_encoding.md R41; log
entry 2), a byte string as channel contents (R41, R48), the pseudo-commands and what the host computes from their
Responses (R49; 70_reset_and_hazards.md R96), the header offset the host supplies (R38), and the well-formedness the host
tests (10_state.md R19). No step of the block uses a name of this file. -/

namespace Sys2Proof.Machine

/-- The host issues a command after everything it has issued: the word, and the data phase (R41, R45). -/
def State.issue (s : State) (i : Instr) : State :=
  { s with hostEvents := s.hostEvents ++ [.command (encodeWord i)], dataIn := s.dataIn ++ dataPhase i }

/-- The host issues a list of commands in order (10_state.md R16). -/
def State.issueAll : List Instr → State → State
  | [], s => s
  | i :: is, s => State.issueAll is (s.issue i)

/-- A byte string of whole commands split into the command channel's words and the data-in channel's bytes (R41, R48). The
first number bounds how many commands are read. -/
def splitStream : Nat → List Byte → Option (List Word × List Byte)
  | _, [] => some ([], [])
  | 0, _ :: _ => none
  | n + 1, b :: bs =>
    match takeWord (b :: bs) with
    | none => none
    | some (w, after) =>
      match takeData w after with
      | none => none
      | some (data, rest) =>
        match splitStream n rest with
        | none => none
        | some (ws, ds) => some (w :: ws, data ++ ds)

/-- The pseudo-commands; none has an opcode (R49). -/
inductive Pseudo where
  | verify
  | payloadFirst
  | payloadNext
  | frameBytes
  | isWellformed
  deriving DecidableEq, Repr

/-- The header offset: 8 for the first SDU of a stream, 6 for every later one; the host's knowledge (R38). -/
def headerOffset (firstInStream : Bool) : U16 := if firstInStream then 8#16 else 6#16

/-- The commands a pseudo-command stands for (R49). -/
def Pseudo.expand : Pseudo → List Instr
  | .verify => [.storedFcs, .computeFcs]
  | .payloadFirst => [.payloadSlice (headerOffset true)]
  | .payloadNext => [.payloadSlice (headerOffset false)]
  | .frameBytes => [.payloadSlice 0#16, .storedFcs]
  | .isWellformed => [.bufferSize]

/-- VERIFY: the ChecksumMismatch condition, both Responses `OK` and their results different (R49; 60_exceptions.md
R81). -/
def hostMismatch : Response → Response → Bool
  | .ok stored _, .ok computed _ => stored != computed
  | .ok _ _, .err _ => false
  | .err _, _ => false

/-- FRAME_BYTES: the slice from 0 with the stored FCS's bytes after it (R49). -/
def hostFrameBytes : Response → Response → Option (List Byte)
  | .ok _ slice, .ok stored _ => some (slice ++ le16Bytes stored)
  | .ok _ _, .err _ => none
  | .err _, _ => none

/-- IS_WELLFORMED: whether the size answered is at least 10 (R49). -/
def hostIsWellFormed : Response → Option Bool
  | .ok n _ => some (decide (10#16 ≤ n))
  | .err _ => none

/-- The payload a host concatenates from the slices of a stream, in stream order; nothing where a slice failed
(70_reset_and_hazards.md R96 item 6; 42_payload_extent.md R64). -/
def hostReassemble : List Response → Option (List Byte)
  | [] => some []
  | .err _ :: _ => none
  | .ok _ d :: rs => (hostReassemble rs).map fun bs => d ++ bs

/-- The check on the reassembled length: it should equal the stream's declared total (R96 item 6). -/
def hostTotalAgrees (declared : U16) (payload : List Byte) : Bool := payload.length == declared.toNat

/-- The frame is well-formed (10_state.md R19). -/
def State.isWellFormed (s : State) : Bool := decide (10#16 ≤ s.size)

end Sys2Proof.Machine
end

