-- ==== Sys2Proof/Machine/Asm.lean ====
section
/-! DEFINITION. The assembler's text form (30_encoding.md R49): one command or pseudo-command a line, operands separated
by spaces, `;` starting a comment. What R49 leaves open is in log entry 11. -/

namespace Sys2Proof.Machine

/-- A finished token, or nothing where no letter was gathered; `acc` is the token backwards. -/
def flushToken (acc : List Char) : List (List Char) := if acc.isEmpty then [] else [acc.reverse]

/-- The tokens of a line: runs of letters between spaces, each bracket a token of its own, nothing from `;` on (R49). -/
def tokensFrom : List Char → List Char → List (List Char)
  | acc, [] => flushToken acc
  | acc, c :: cs =>
    if c = ';' then flushToken acc
    else if c = ' ' then flushToken acc ++ tokensFrom [] cs
    else if c = '[' ∨ c = ']' then flushToken acc ++ [c] :: tokensFrom [] cs
    else tokensFrom (c :: acc) cs

/-- The value of a hexadecimal digit, in either case. -/
def hexValue (c : Char) : Option Nat :=
  if '0'.toNat ≤ c.toNat ∧ c.toNat ≤ '9'.toNat then some (c.toNat - '0'.toNat)
  else if 'A'.toNat ≤ c.toNat ∧ c.toNat ≤ 'F'.toNat then some (c.toNat - 'A'.toNat + 10)
  else if 'a'.toNat ≤ c.toNat ∧ c.toNat ≤ 'f'.toNat then some (c.toNat - 'a'.toNat + 10)
  else none

/-- The value of a decimal digit. -/
def decValue (c : Char) : Option Nat :=
  if '0'.toNat ≤ c.toNat ∧ c.toNat ≤ '9'.toNat then some (c.toNat - '0'.toNat) else none

/-- Digits to a number, most significant first. -/
def digitsFrom (base : Nat) (value : Char → Option Nat) : Nat → List Char → Option Nat
  | n, [] => some n
  | n, c :: cs =>
    match value c with
    | some v => digitsFrom base value (n * base + v) cs
    | none => none

/-- A header offset: decimal or `0x` hexadecimal, 0..65535 (R49). -/
def parseOffset (t : List Char) : Option U16 :=
  let n := match t with
    | '0' :: 'x' :: d :: ds => digitsFrom 16 hexValue 0 (d :: ds)
    | d :: ds => digitsFrom 10 decValue 0 (d :: ds)
    | [] => none
  match n with
  | some v => if v < 65536 then some (BitVec.ofNat 16 v) else none
  | none => none

/-- A data byte: two hexadecimal digits (R49). -/
def parseByte : List Char → Option Byte
  | [h, l] =>
    match hexValue h, hexValue l with
    | some a, some b => some (BitVec.ofNat 8 (16 * a + b))
    | _, _ => none
  | _ => none

/-- The tokens after `[`: bytes, then `]`, then nothing (R49). -/
def parseBytes : List (List Char) → Option (List Byte)
  | [] => none
  | t :: ts =>
    if t = [']'] then (if ts.isEmpty then some [] else none)
    else match parseByte t, parseBytes ts with
      | some b, some bs => some (b :: bs)
      | _, _ => none

/-- The mnemonics without an operand: the eight commands, and the pseudo-commands' expansions (R49). -/
def plainMnemonics : List (List Char × List Instr) :=
  [(['L', 'E', 'N', 'G', 'T', 'H'], [.length]),
   (['C', 'H', 'A', 'N', 'N', 'E', 'L', '_', 'I', 'D'], [.channelId]),
   (['T', 'O', 'T', 'A', 'L', '_', 'L', '2', 'C', 'A', 'P', '_', 'L', 'E', 'N', 'G', 'T', 'H'], [.totalL2capLength]),
   (['C', 'O', 'N', 'T', 'R', 'O', 'L', 'S'], [.controls]),
   (['S', 'T', 'O', 'R', 'E', 'D', '_', 'F', 'C', 'S'], [.storedFcs]),
   (['B', 'U', 'F', 'F', 'E', 'R', '_', 'S', 'I', 'Z', 'E'], [.bufferSize]),
   (['P', 'A', 'Y', 'L', 'O', 'A', 'D', '_', 'E', 'N', 'D'], [.payloadEnd]),
   (['C', 'O', 'M', 'P', 'U', 'T', 'E', '_', 'F', 'C', 'S'], [.computeFcs])] ++
  [(['V', 'E', 'R', 'I', 'F', 'Y'], Pseudo.verify.expand),
   (['P', 'A', 'Y', 'L', 'O', 'A', 'D', '_', 'F', 'I', 'R', 'S', 'T'], Pseudo.payloadFirst.expand),
   (['P', 'A', 'Y', 'L', 'O', 'A', 'D', '_', 'N', 'E', 'X', 'T'], Pseudo.payloadNext.expand),
   (['F', 'R', 'A', 'M', 'E', '_', 'B', 'Y', 'T', 'E', 'S'], Pseudo.frameBytes.expand),
   (['I', 'S', '_', 'W', 'E', 'L', 'L', 'F', 'O', 'R', 'M', 'E', 'D'], Pseudo.isWellformed.expand)]

/-- The commands a line's tokens stand for (R49). An empty line stands for none, and a NEW or BUILD line with more bytes
than the 16-bit `arg` counts (over 65535), of which R49 does not speak, is read as that command, a term that is not
well-formed and has no word (DESIGN CHOICE, log entry 11). -/
def parseTokens : List (List Char) → Option (List Instr)
  | [] => some []
  | [m] => (plainMnemonics.find? fun r => r.1 == m).map Prod.snd
  | m :: t :: ts =>
    if m = ['N', 'E', 'W'] then
      if t = ['['] then (parseBytes ts).map fun d => [.new d] else none
    else if m = ['B', 'U', 'I', 'L', 'D'] then
      if t = ['['] then (parseBytes ts).map fun p => [.build p] else none
    else if m = ['P', 'A', 'Y', 'L', 'O', 'A', 'D', '_', 'S', 'T', 'A', 'R', 'T'] then
      if ts.isEmpty then (parseOffset t).map fun o => [.payloadStart o] else none
    else if m = ['P', 'A', 'Y', 'L', 'O', 'A', 'D', '_', 'S', 'L', 'I', 'C', 'E'] then
      if ts.isEmpty then (parseOffset t).map fun o => [.payloadSlice o] else none
    else none

/-- The commands one line of assembler text stands for; `none` where the line is not of R49's form. -/
def assembleLine (line : List Char) : Option (List Instr) := parseTokens (tokensFrom [] line)

/-- The commands of a text, line after line (R49; 10_state.md R16). -/
def assemble : List (List Char) → Option (List Instr)
  | [] => some []
  | line :: lines =>
    match assembleLine line, assemble lines with
    | some a, some b => some (a ++ b)
    | _, _ => none

end Sys2Proof.Machine
end

