-- ==== Sys2Proof/Safety.lean ====
section
/-! DEFINITION. What a good state of the block is, and which stops a run may end in. An `Err` Response is no failure of a
run (70_reset_and_hazards.md R98). -/

namespace Sys2Proof.Machine

/-- BUF holds a byte at exactly the positions `0..SIZE-1` (10_state.md R9, R10). -/
abbrev State.BufExact (s : State) : Prop := s.buf.map Prod.fst = List.range s.size.toNat

/-- `SIZE <= MAX_FRAME_BYTES` and `10 <= MAX_FRAME_BYTES` (10_state.md R10; 00_scope.md R6). -/
abbrev State.WithinCapacity (s : State) : Prop :=
  s.size ≤ s.maxFrameBytes ∧ Config.leastMaxFrameBytes ≤ s.maxFrameBytes

/-- One Response per executed command (30_encoding.md R41; 10_state.md R16). -/
abbrev State.OneResponseEach (s : State) : Prop := s.responses.length = s.k

/-- The invariant of the machine: it holds after reset and every step keeps it. -/
abbrev State.Inv (s : State) : Prop := s.BufExact ∧ s.WithinCapacity ∧ s.OneResponseEach

/-- The command words the host has yet to send (10_state.md R16). -/
def pendingCommands (es : List HostEvent) : List Word :=
  es.filterMap fun e => match e with
    | .command w => some w
    | .reset => none

end Sys2Proof.Machine
end

