-- ==== Sys2Proof/Certificates/Slice0/Obligations.lean ====
section
/-! DEFINITION. The statements for the provers. Each docstring names the rules of spec/ it rests on. A command that ends
with a Response `r` and changes nothing else leaves `s` with `r` at the end of `responses` and `k` advanced by one. -/

open Sys2Proof Sys2Proof.Machine

/-! ## Reset and the run -/

/-- R21, R69. After reset `SIZE` is 0, no position holds a byte and the table's entries are those R69's generator gives;
the frame is the one NEW leaves for the empty sequence; BUFFER_SIZE answers 0 and every other accessor MalformedFrame.
Rests on the spec's own decisions D6, D16 (when the table is valid) and D17 (its entries, which the spec marks as from
general knowledge); log entry 7 for the table as a constant. -/
def Obligations.ResetIsTheEmptyFrame : Prop :=
  State.reset.size = 0#16 ∧ (∀ p, State.reset.readByte p = none) ∧
  fcsTable.length = 256 ∧ (∀ b : Byte, tableAt (zext16 b) = generatedEntry b) ∧
  exec (.new []) State.reset = .next { State.reset with responses := [.ok 0#16 []], k := 1 } ∧
  exec .bufferSize State.reset = .next { State.reset with responses := [.ok 0#16 []], k := 1 } ∧
  ∀ i : Instr, i.isConstructor = false → i ≠ .bufferSize →
    exec i State.reset = .next { State.reset with responses := [.err .malformedFrame], k := 1 }

/-- R9, R10, R21, R6. The state after reset meets the invariant. -/
def Obligations.ResetMeetsTheInvariant : Prop := State.reset.Inv

/-- R9, R10, R12, R41. From every state that meets the invariant, a step gives a state that meets it: BUF holds a byte at
exactly the positions below SIZE, SIZE is within the capacity, and there is one Response for each executed command. -/
def Obligations.StepKeepsTheInvariant : Prop :=
  ∀ s t : State, s.Inv → step s = .next t → t.Inv

/-- R16, R41, R48; log entry 2 for the fields that hold the channels. Where the next word and its data phase decode to a
command, the step is that command, in the state with the word and the data phase consumed. -/
def Obligations.StepRunsTheDecodedCommand : Prop :=
  ∀ (s : State) (w : Word) (rest : List HostEvent) (data after : List Byte) (i : Instr),
    s.hostEvents = .command w :: rest → s.dataIn = data ++ after → data.length = w.dataLen →
    decode w data = .ok i → step s = exec i { s with hostEvents := rest, dataIn := after }

/-- R47. A word is no command exactly when its opcode is undefined, or `rsv` is not 0, or it is an operand-less
command with `arg` not 0; such a word consumes its data phase, answers IllegalCommand and changes nothing else. Rests
on the spec's own decisions D2 and D13; log entry 2 for the fields. -/
def Obligations.IllegalWordsAnswerIllegalCommand : Prop :=
  ∀ w : Word,
    let illegal : Prop :=
      w.op ∉ [0x01#8, 0x02#8, 0x10#8, 0x11#8, 0x12#8, 0x13#8, 0x14#8, 0x15#8, 0x20#8, 0x21#8, 0x22#8, 0x30#8] ∨
      w.rsv ≠ 0#8 ∨
      (w.op ∈ [0x10#8, 0x11#8, 0x12#8, 0x13#8, 0x14#8, 0x15#8, 0x21#8, 0x30#8] ∧ w.arg ≠ 0#16)
    (∀ data : List Byte, (∃ i, decode w data = .ok i) ↔ ¬ illegal) ∧
    (illegal → ∀ (s : State) (rest : List HostEvent) (data after : List Byte),
      s.hostEvents = .command w :: rest → s.dataIn = data ++ after →
      data.length = (if w.op = 0x01#8 ∨ w.op = 0x02#8 then w.arg.toNat else 0) →
      step s = .next { s with
        hostEvents := rest, dataIn := after, responses := s.responses ++ [.err .illegalCommand], k := s.k + 1 })

/-- R92; log entries 2 and 6 for what happens to the channels. The reset event leaves the empty frame and nothing else
changed; it produces no Response. Rests on the spec's own decision D6. -/
def Obligations.ResetEventEmptiesTheFrame : Prop :=
  ∀ (s : State) (rest : List HostEvent), s.hostEvents = .reset :: rest →
    step s = .next { s with hostEvents := rest, buf := [], size := 0#16 }

/-- R77, R87, R98; log entries 3 and 4 for the two stops. With an exact buffer a step is never refused, and it stops exactly
when the host's list is exhausted or a data phase is not all there; no error stops the block. -/
def Obligations.StepStopsOnlyWithoutInput : Prop :=
  ∀ s : State, s.BufExact →
    (∀ r, step s ≠ .refused r) ∧
    (∀ f, step s = .fault f ↔
      (f = .endOfRun ∧ s.hostEvents = []) ∨
      (f = .dataPhaseIncomplete ∧
        ∃ w rest, s.hostEvents = .command w :: rest ∧ s.dataIn.length < w.dataLen))

/-- R16, R41, R92; log entry 2. A step takes the first entry of the host's list. A command word, legal or not, advances
`k` by exactly 1 and produces exactly one Response; the reset event does neither; so `k` and the commands still to come
always add up to the same number. Rests on the spec's own decision D21. That a reset event keeps the rest of the host's
list, `k` and the Responses already given is the model's choice (log entry 6). -/
def Obligations.EveryCommandAdvancesTheIndexByOne : Prop :=
  ∀ s t : State, step s = .next t →
    t.hostEvents = s.hostEvents.tail ∧
    t.k + (pendingCommands t.hostEvents).length = s.k + (pendingCommands s.hostEvents).length ∧
    ((∃ w rest, s.hostEvents = .command w :: rest ∧ t.k = s.k + 1 ∧ ∃ r, t.responses = s.responses ++ [r]) ∨
     (∃ rest, s.hostEvents = .reset :: rest ∧ t.k = s.k ∧ t.responses = s.responses))

/-- R77, R85. A step that ends in an error Response leaves the frame and the parameter as they were and no trace but
the Response, which carries no bytes and drives 0. Log entry 2 for the channels. -/
def Obligations.ErrorsLeaveTheFrameUnchanged : Prop :=
  ∀ (s t : State) (e : ErrorKind), step s = .next t → t.responses = s.responses ++ [.err e] →
    t = { s with
      hostEvents := s.hostEvents.tail, dataIn := t.dataIn, responses := s.responses ++ [.err e], k := s.k + 1 } ∧
    (Response.err e).resultField = 0#16 ∧ (Response.err e).dout = []

/-- R12, R61 (c), R7. None of the ten accessors changes BUF, SIZE or anything but the response channel and the index: every
byte reads as before. -/
def Obligations.AccessorsLeaveTheFrameUnchanged : Prop :=
  ∀ (i : Instr) (s t : State), i.isConstructor = false → exec i s = .next t →
    (∃ r, t = { s with responses := s.responses ++ [r], k := s.k + 1 }) ∧ ∀ p, t.readByte p = s.readByte p

/-- R6. No step changes the capacity; log entry 1 for the field that holds it. -/
def Obligations.CapacityIsNeverWritten : Prop :=
  ∀ s t : State, step s = .next t → t.maxFrameBytes = s.maxFrameBytes

/-- R13, R61 (b). The block keeps nothing but the frame: in two states with the same frame and capacity a command ends
the same way, with the same Response and the same frame after it. Rests on the spec's own decision D19. -/
def Obligations.OnlyTheFrameDecidesAResponse : Prop :=
  ∀ (i : Instr) (s t s' : State),
    t.buf = s.buf → t.size = s.size → t.maxFrameBytes = s.maxFrameBytes → exec i s = .next s' →
    ∃ r t', exec i t = .next t' ∧ s'.responses = s.responses ++ [r] ∧ t'.responses = t.responses ++ [r] ∧
      t'.buf = s'.buf ∧ t'.size = s'.size

/-- R28, R61 (a). Whatever accessor runs in between, an accessor gives the same Response again. The spec derives it. -/
def Obligations.RepeatedReadsAnswerTheSame : Prop :=
  ∀ (i j : Instr) (s t : State) (r : Response), i.isConstructor = false → j.isConstructor = false →
    exec j s = .next t →
    exec i s = .next { s with responses := s.responses ++ [r], k := s.k + 1 } →
    exec i t = .next { t with responses := t.responses ++ [r], k := t.k + 1 }

/-! ## Encoding -/

/-- R42 to R45, R48. Decoding the bytes of a well-formed command gives the command back, and the bytes after it. Rests
on the spec's own decisions D2, D3 and D24. -/
def Obligations.DecodeOfEncodeIsTheCommand : Prop :=
  ∀ (i : Instr) (rest : List Byte), i.wf = true → decodeBytes (encode i ++ rest) = .ok (i, rest)

/-- R42 to R45, R47. Every word and data phase that decode to a command are the ones that command is encoded as. Rests
on the spec's own decisions D2 and D13. -/
def Obligations.EncodeOfDecodeIsTheWord : Prop :=
  ∀ (w : Word) (data : List Byte) (i : Instr), data.length = w.dataLen → decode w data = .ok i →
    encodeWord i = w ∧ dataPhase i = data ∧ i.wf = true

/-- R43. A word decodes to a command exactly when it selects that command's row of the opcode table, and a word that
selects no row is illegal. Rests on the spec's own decisions D3 and D13. -/
def Obligations.DecoderFollowsTheOpcodeRows : Prop :=
  ∀ (w : Word) (data : List Byte),
    (∀ i, decode w data = .ok i → i.row ∈ opcodeRows ∧ i.row.selects w = true) ∧
    ((∃ e, decode w data = .error e) ↔ ∀ r ∈ opcodeRows, r.selects w = false)

/-- R43. No word selects two rows. Rests on the spec's own decision D3. -/
def Obligations.OpcodeRowsNeverOverlap : Prop :=
  ∀ (w : Word) (r q : OpcodeRow), r ∈ opcodeRows → q ∈ opcodeRows → r.selects w = true → q.selects w = true → r = q

/-- R42, R43, R45, R47, R48. Ten command words and what each decodes to. 0x00000010, 0x00000820, 0x00000622, 0x00FFFF22,
0x00000000, 0x00000110 and 0x01000010 stand in 95_test_vectors.md section 7, 0x00000002 and 0x00000030 in its section 8;
0x00000301 stands in neither and is R43's NEW with `arg` 3. Rests on the spec's own decisions D2, D3 and D13. -/
def Obligations.DecodesTheSpecsWords : Prop :=
  decode 0x00000010#32 [] = .ok .length ∧
  decode 0x00000820#32 [] = .ok (.payloadStart 8#16) ∧
  decode 0x00000622#32 [] = .ok (.payloadSlice 6#16) ∧
  decode 0x00FFFF22#32 [] = .ok (.payloadSlice 65535#16) ∧
  decode 0x00000301#32 [0x0A#8, 0x0B#8, 0x0C#8] = .ok (.new [0x0A#8, 0x0B#8, 0x0C#8]) ∧
  decode 0x00000002#32 [] = .ok (.build []) ∧
  decode 0x00000030#32 [] = .ok .computeFcs ∧
  decode 0x00000000#32 [] = .error .undefinedOpcode ∧
  decode 0x00000110#32 [] = .error .strayOperand ∧
  decode 0x01000010#32 [] = .error .reservedBits

/-- R41, R45, R99; log entry 2. A well-formed command that the host issues to an idle block is the one the next step
executes. -/
def Obligations.IssuedCommandsAreExecuted : Prop :=
  ∀ (i : Instr) (s : State), i.wf = true → s.hostEvents = [] → s.dataIn = [] → step (s.issue i) = exec i s

/-! ## Construction -/

/-- R50. NEW: word `op = 0x01` and its data bytes; a sequence that fits becomes the frame, whole and unchecked, and a
longer one is refused with the frame before kept. Rests on the spec's own decisions D7, D14 and D23. -/
def Obligations.NewHoldsTheBytes : Prop :=
  (∀ (w : Word) (d : List Byte), w.rsv = 0#8 → w.op = 0x01#8 → decode w d = .ok (.new d)) ∧
  ∀ (d : List Byte) (s : State),
    (d.length ≤ s.maxFrameBytes.toNat → ∃ t, exec (.new d) s = .next t ∧
      t.size.toNat = d.length ∧ (∀ p, t.readByte p = d[p]?) ∧ t.BufExact ∧
      t = { s with buf := t.buf, size := t.size, responses := s.responses ++ [.ok 0#16 []], k := s.k + 1 }) ∧
    (s.maxFrameBytes.toNat < d.length →
      exec (.new d) s = .next { s with responses := s.responses ++ [.err .capacityExceeded], k := s.k + 1 })

/-- R51. BUILD: word `op = 0x02` and its data bytes; the bytes and their FCS, low byte first, become the frame, or,
where they do not fit, the frame before is kept. Rests on the spec's own decisions D7, D14, D23 and D25. -/
def Obligations.BuildAppendsTheFcs : Prop :=
  (∀ (w : Word) (p : List Byte), w.rsv = 0#8 → w.op = 0x02#8 → decode w p = .ok (.build p)) ∧
  ∀ (p : List Byte) (s : State),
    (p.length + 2 ≤ s.maxFrameBytes.toNat → ∃ t, exec (.build p) s = .next t ∧
      t.size.toNat = p.length + 2 ∧
      (∀ i, t.readByte i = (p ++ [(fcs16 p).extractLsb' 0 8, (fcs16 p).extractLsb' 8 8])[i]?) ∧ t.BufExact ∧
      t = { s with buf := t.buf, size := t.size, responses := s.responses ++ [.ok 0#16 []], k := s.k + 1 }) ∧
    (s.maxFrameBytes.toNat < p.length + 2 →
      exec (.build p) s = .next { s with responses := s.responses ++ [.err .capacityExceeded], k := s.k + 1 })

/-- R52. BUILD leaves the state NEW leaves for the same bytes with their FCS appended; the input bytes stand unchanged
at the front. The spec derives it. -/
def Obligations.BuildIsNewWithTheTrailer : Prop :=
  ∀ (p : List Byte) (s : State), p.length + 2 ≤ s.maxFrameBytes.toNat →
    ∃ t, exec (.build p) s = .next t ∧ exec (.new (p ++ [lo8 (fcs16 p), hi8 (fcs16 p)])) s = .next t ∧
      ∀ i, i < p.length → t.readByte i = p[i]?

/-- R53. After a successful BUILD, STORED_FCS and COMPUTE_FCS both answer `OK` with `fcs16` of the input, for every
input, the empty one among them. The source's law; for short inputs it rests on the spec's own decision D8. -/
def Obligations.BuiltFramesAreSelfConsistent : Prop :=
  ∀ (p : List Byte) (s : State), p.length + 2 ≤ s.maxFrameBytes.toNat →
    ∃ t, exec (.build p) s = .next t ∧
      exec .storedFcs t = .next { t with responses := t.responses ++ [.ok (fcs16 p) []], k := t.k + 1 } ∧
      exec .computeFcs t = .next { t with responses := t.responses ++ [.ok (fcs16 p) []], k := t.k + 1 }

/-- R8, R12. After a constructor that succeeds nothing of the frame before remains: the frame is the same whatever
frame stood there. Rests on the spec's own decision D7. -/
def Obligations.ConstructorsLeaveNothingOfTheOldFrame : Prop :=
  ∀ (i : Instr) (s t : State) (oldBuf : Memory) (oldSize : U16), i.isConstructor = true →
    exec i s = .next t → t.responses = s.responses ++ [.ok 0#16 []] →
    exec i { s with buf := oldBuf, size := oldSize } = .next t

/-! ## Field accessors -/

/-- R54 to R58. The four header accessors, each by its opcode and position: below 10 bytes MalformedFrame; otherwise the
little-endian pair of the two bytes at the position. -/
def Obligations.HeaderFieldsAreLittleEndianPairs : Prop :=
  ∀ q ∈ [(Instr.length, 0x10#8, 0), (Instr.channelId, 0x11#8, 2), (Instr.totalL2capLength, 0x12#8, 4),
      (Instr.controls, 0x13#8, 6)],
    (∀ w : Word, w.rsv = 0#8 → w.op = q.2.1 → w.arg = 0#16 → decode w [] = .ok q.1) ∧
    ∀ s : State,
      (s.size.toNat < 10 →
        exec q.1 s = .next { s with responses := s.responses ++ [.err .malformedFrame], k := s.k + 1 }) ∧
      (s.BufExact → 10 ≤ s.size.toNat → ∃ lo hi : Byte,
        s.readByte q.2.2 = some lo ∧ s.readByte (q.2.2 + 1) = some hi ∧
        exec q.1 s = .next { s with
          responses := s.responses ++ [.ok (lo.setWidth 16 ||| (hi.setWidth 16 <<< 8)) []], k := s.k + 1 })

/-- R59. STORED_FCS: opcode 0x14; below 2 bytes MalformedFrame, otherwise the little-endian pair at `SIZE - 2`. The
threshold is the spec's own decision D8. -/
def Obligations.StoredFcsIsTheLastTwoBytes : Prop :=
  (∀ w : Word, w.rsv = 0#8 → w.op = 0x14#8 → w.arg = 0#16 → decode w [] = .ok .storedFcs) ∧
  ∀ s : State,
    (s.size.toNat < 2 →
      exec .storedFcs s = .next { s with responses := s.responses ++ [.err .malformedFrame], k := s.k + 1 }) ∧
    (s.BufExact → 2 ≤ s.size.toNat → ∃ lo hi : Byte,
      s.readByte (s.size.toNat - 2) = some lo ∧ s.readByte (s.size.toNat - 1) = some hi ∧
      exec .storedFcs s = .next { s with
        responses := s.responses ++ [.ok (lo.setWidth 16 ||| (hi.setWidth 16 <<< 8)) []], k := s.k + 1 })

/-- R60. BUFFER_SIZE: opcode 0x15; `SIZE`, in every state. -/
def Obligations.BufferSizeAnswersTheSize : Prop :=
  (∀ w : Word, w.rsv = 0#8 → w.op = 0x15#8 → w.arg = 0#16 → decode w [] = .ok .bufferSize) ∧
  ∀ s : State, exec .bufferSize s = .next { s with responses := s.responses ++ [.ok s.size []], k := s.k + 1 }

/-! ## Payload extent -/

/-- R62. PAYLOAD_START: opcode 0x20; below 2 bytes MalformedFrame for every offset; else InvalidOffset iff the offset
is beyond `SIZE - 2`; else the offset itself. No byte of BUF matters. Rests on the spec's own decisions D9 and D10. -/
def Obligations.PayloadStartChecksTheOffset : Prop :=
  (∀ w : Word, w.rsv = 0#8 → w.op = 0x20#8 → decode w [] = .ok (.payloadStart w.arg)) ∧
  ∀ (offset : U16) (s : State),
    exec (.payloadStart offset) s = .next { s with
      responses := s.responses ++
        [if s.size.toNat < 2 then .err .malformedFrame
         else if s.size.toNat - 2 < offset.toNat then .err .invalidOffset
         else .ok offset []],
      k := s.k + 1 }

/-- R63. PAYLOAD_END: opcode 0x21; below 2 bytes MalformedFrame, otherwise `SIZE - 2`. No byte of BUF matters. -/
def Obligations.PayloadEndIsTheTrailerPosition : Prop :=
  (∀ w : Word, w.rsv = 0#8 → w.op = 0x21#8 → w.arg = 0#16 → decode w [] = .ok .payloadEnd) ∧
  ∀ s : State,
    exec .payloadEnd s = .next { s with
      responses := s.responses ++
        [if s.size.toNat < 2 then .err .malformedFrame else .ok (BitVec.ofNat 16 (s.size.toNat - 2)) []],
      k := s.k + 1 }

/-- R64. PAYLOAD_SLICE: opcode 0x22; the errors of PAYLOAD_START; otherwise the count `SIZE - 2 - offset` and exactly
that many bytes, those of BUF from the offset on, in order. Rests on the spec's own decisions D9 and D20. -/
def Obligations.PayloadSliceIsTheBytesBetween : Prop :=
  (∀ w : Word, w.rsv = 0#8 → w.op = 0x22#8 → decode w [] = .ok (.payloadSlice w.arg)) ∧
  ∀ (offset : U16) (s : State),
    (s.size.toNat < 2 → exec (.payloadSlice offset) s =
      .next { s with responses := s.responses ++ [.err .malformedFrame], k := s.k + 1 }) ∧
    (2 ≤ s.size.toNat → s.size.toNat - 2 < offset.toNat → exec (.payloadSlice offset) s =
      .next { s with responses := s.responses ++ [.err .invalidOffset], k := s.k + 1 }) ∧
    (s.BufExact → 2 ≤ s.size.toNat → offset.toNat ≤ s.size.toNat - 2 → ∃ bytes : List Byte,
      bytes.length = s.size.toNat - 2 - offset.toNat ∧
      (∀ j, j < bytes.length → bytes[j]? = s.readByte (offset.toNat + j)) ∧
      exec (.payloadSlice offset) s = .next { s with
        responses := s.responses ++ [.ok (BitVec.ofNat 16 bytes.length) bytes], k := s.k + 1 })

/-- R64. PAYLOAD_SLICE answers `OK` exactly when PAYLOAD_START and PAYLOAD_END both would, and its count is then the
difference of their results. Rests on the spec's own decisions D9 and D20. -/
def Obligations.SliceAgreesWithStartAndEnd : Prop :=
  ∀ (offset : U16) (s : State), s.BufExact → ∃ a b c : Response,
    exec (.payloadStart offset) s = .next { s with responses := s.responses ++ [a], k := s.k + 1 } ∧
    exec .payloadEnd s = .next { s with responses := s.responses ++ [b], k := s.k + 1 } ∧
    exec (.payloadSlice offset) s = .next { s with responses := s.responses ++ [c], k := s.k + 1 } ∧
    (c.status = 0#3 ↔ a.status = 0#3 ∧ b.status = 0#3) ∧
    (c.status = 0#3 → c.resultField = b.resultField - a.resultField ∧ c.dout.length = c.resultField.toNat) ∧
    (c.status ≠ 0#3 → c = a)

/-- R65. An empty payload is valid: at the offset `SIZE - 2` start and end answer the same position and the slice is `OK`
with no bytes. -/
def Obligations.EmptyPayloadIsValid : Prop :=
  ∀ (s : State) (offset : U16), 2 ≤ s.size.toNat → offset.toNat = s.size.toNat - 2 →
    exec (.payloadStart offset) s = .next { s with responses := s.responses ++ [.ok offset []], k := s.k + 1 } ∧
    exec .payloadEnd s = .next { s with responses := s.responses ++ [.ok offset []], k := s.k + 1 } ∧
    exec (.payloadSlice offset) s = .next { s with responses := s.responses ++ [.ok 0#16 []], k := s.k + 1 }

/-- R66 (a), (b). An accepted start is never beyond the end, and two accepted starts differ as their offsets do. The
spec derives it. -/
def Obligations.AcceptedStartsDifferAsTheOffsets : Prop :=
  ∀ (s : State) (a b x y : U16),
    exec (.payloadStart a) s = .next { s with responses := s.responses ++ [.ok x []], k := s.k + 1 } →
    exec (.payloadStart b) s = .next { s with responses := s.responses ++ [.ok y []], k := s.k + 1 } →
    x - y = a - b ∧
    ∃ e : U16, exec .payloadEnd s = .next { s with responses := s.responses ++ [.ok e []], k := s.k + 1 } ∧
      x.toNat ≤ e.toNat ∧ y.toNat ≤ e.toNat

/-- R39, R58. With offset 6 the payload overlaps the control field: CONTROLS reads the payload's first two bytes, in a
frame long enough that they are payload. The reading of 90_conflicts.md C2. -/
def Obligations.ControlsReadsTheFirstPayloadBytesAtOffsetSix : Prop :=
  ∀ s : State, s.BufExact → 10 ≤ s.size.toNat → ∃ (v n : U16) (bytes : List Byte),
    exec .controls s = .next { s with responses := s.responses ++ [.ok v []], k := s.k + 1 } ∧
    exec (.payloadSlice (headerOffset false)) s =
      .next { s with responses := s.responses ++ [.ok n bytes], k := s.k + 1 } ∧
    bytes.take 2 = [v.extractLsb' 0 8, v.extractLsb' 8 8]

/-! ## The FCS -/

/-- R70. COMPUTE_FCS: opcode 0x30; below 2 bytes MalformedFrame, otherwise `fcs16` over the window of all bytes below
`SIZE - 2`. The threshold is the spec's own decision D8, D11. -/
def Obligations.ComputeFcsRunsOverTheWindow : Prop :=
  (∀ w : Word, w.rsv = 0#8 → w.op = 0x30#8 → w.arg = 0#16 → decode w [] = .ok .computeFcs) ∧
  ∀ s : State,
    (s.size.toNat < 2 →
      exec .computeFcs s = .next { s with responses := s.responses ++ [.err .malformedFrame], k := s.k + 1 }) ∧
    (s.BufExact → 2 ≤ s.size.toNat → ∃ window : List Byte,
      window.length = s.size.toNat - 2 ∧ (∀ j, j < window.length → window[j]? = s.readByte j) ∧
      exec .computeFcs s =
        .next { s with responses := s.responses ++ [.ok (fcs16 window) []], k := s.k + 1 })

/-- R68, R70. The two FCS bytes never enter the computation: two frames of one size that agree below `SIZE - 2` give
the same Response. Below 2 bytes it rests on the spec's own decision D11. -/
def Obligations.ComputeFcsIgnoresTheTrailer : Prop :=
  ∀ s t : State, s.BufExact → t.BufExact → s.size = t.size →
    (∀ p, p + 2 < s.size.toNat → s.readByte p = t.readByte p) →
    ∃ r, exec .computeFcs s = .next { s with responses := s.responses ++ [r], k := s.k + 1 } ∧
      exec .computeFcs t = .next { t with responses := t.responses ++ [r], k := t.k + 1 }

/-- R67, 95_test_vectors.md D-FCS-3 and X1. One step of the loop is the update rule, and two windows of the vectors.
That no further step follows is the spec's own decision D22. -/
def Obligations.FcsStepIsTheUpdateRule : Prop :=
  (∀ (crc : U16) (b : Byte) (s : List Byte),
    fcsFrom crc (b :: s) = fcsFrom (tableAt ((crc ^^^ b.setWidth 16) &&& 0x00FF#16) ^^^ (crc >>> 8)) s) ∧
  fcs16 [0x04#8, 0x00#8, 0x48#8, 0x00#8, 0x04#8, 0x00#8, 0xAB#8, 0xCD#8] = 0xEEB1#16 ∧
  fcs16 [0x0E#8, 0x00#8, 0x40#8, 0x00#8, 0x02#8, 0x00#8, 0x00#8, 0x01#8, 0x02#8, 0x03#8, 0x04#8, 0x05#8, 0x06#8, 0x07#8,
    0x08#8, 0x09#8] = 0x6138#16

/-- R69. The table is linear over exclusive-or and no two entries are equal. The table is the spec's own decision D17. -/
def Obligations.TableIsLinearAndInjective : Prop :=
  ∀ a b : Byte, tableAt (zext16 (a ^^^ b)) = tableAt (zext16 a) ^^^ tableAt (zext16 b) ∧
    (tableAt (zext16 a) = tableAt (zext16 b) → a = b)

/-- R73. The six laws of the FCS: empty input, zero bytes, a single byte, linearity, the residue, the incremental
form. The spec derives them. -/
def Obligations.FcsLaws : Prop :=
  fcs16 [] = 0#16 ∧
  ((∀ n, fcs16 (List.replicate n 0#8) = 0#16) ∧ ∀ s, fcs16 (0#8 :: s) = fcs16 s) ∧
  (∀ b : Byte, fcs16 [b] = tableAt (zext16 b)) ∧
  (∀ s t : List Byte, s.length = t.length → fcs16 (List.zipWith (· ^^^ ·) s t) = fcs16 s ^^^ fcs16 t) ∧
  (∀ p : List Byte, fcs16 (p ++ [lo8 (fcs16 p), hi8 (fcs16 p)]) = 0#16) ∧
  (∀ s t : List Byte, fcs16 (s ++ t) = fcsFrom (fcs16 s) t)

/-- R72. The table-driven calculation equals the bit-serial register of the polynomial, bit 0 of each byte first. The
spec derives it. -/
def Obligations.FcsEqualsTheBitSerialRegister : Prop :=
  ∀ s : List Byte, fcs16 s = fcs16Bitwise s

/-- R74. Flipping any one bit of the window changes COMPUTE_FCS; flipping one bit of the trailer leaves COMPUTE_FCS and
changes STORED_FCS; no sequence with exactly one bit set has FCS 0. That both commands answer `OK` at sizes 2 to 9 is the
spec's own decision D8, and the table is its decision D17. -/
def Obligations.SingleBitFlipsAreDetected : Prop :=
  (∀ (n m j : Nat), j < 8 → fcs16 (List.replicate n 0#8 ++ [1#8 <<< j] ++ List.replicate m 0#8) ≠ 0#16) ∧
  ∀ (s t : State) (p j : Nat) (b : Byte), s.BufExact → t.BufExact → 2 ≤ s.size.toNat → t.size = s.size → j < 8 →
    s.readByte p = some b → t.readByte p = some (b ^^^ (1#8 <<< j)) →
    (∀ q, q ≠ p → t.readByte q = s.readByte q) →
    ∃ x y v u : U16,
      exec .computeFcs s = .next { s with responses := s.responses ++ [.ok x []], k := s.k + 1 } ∧
      exec .computeFcs t = .next { t with responses := t.responses ++ [.ok y []], k := t.k + 1 } ∧
      exec .storedFcs s = .next { s with responses := s.responses ++ [.ok v []], k := s.k + 1 } ∧
      exec .storedFcs t = .next { t with responses := t.responses ++ [.ok u []], k := t.k + 1 } ∧
      (if p + 2 < s.size.toNat then x ≠ y ∧ v = u else x = y ∧ v ≠ u)

/-! ## Responses and the host -/

/-- R46. The response word: result in 15:0, status in 18:16, zero above; the codes of the kinds; an `Err` drives 0 and
no bytes; a command's `OK` carries bytes only for PAYLOAD_SLICE, as many as its result says, and a constructor's is 0.
Rests on the spec's own decisions D4, D15 and D23. -/
def Obligations.ResponseWordHasItsFields : Prop :=
  (∀ r : Response, r.word.extractLsb' 0 16 = r.resultField ∧ r.word.extractLsb' 16 3 = r.status ∧
    r.word.extractLsb' 19 13 = 0#13 ∧ r.status ≠ 3#3 ∧ r.status ≠ 6#3 ∧ r.status ≠ 7#3) ∧
  (∀ v d, (Response.ok v d).status = 0#3 ∧ (Response.ok v d).resultField = v) ∧
  (∀ e, (Response.err e).resultField = 0#16 ∧ (Response.err e).dout = []) ∧
  (Response.err .malformedFrame).status = 1#3 ∧ (Response.err .invalidOffset).status = 2#3 ∧
  (Response.err .illegalCommand).status = 4#3 ∧ (Response.err .capacityExceeded).status = 5#3 ∧
  ∀ (i : Instr) (s t : State) (v : U16) (d : List Byte), s.BufExact → exec i s = .next t →
    t.responses = s.responses ++ [.ok v d] →
    ((∀ o, i ≠ .payloadSlice o) → d = []) ∧ (∀ o, i = .payloadSlice o → d.length = v.toNat) ∧
    (i.isConstructor = true → v = 0#16)

/-- R49, FRAME_BYTES. A host that asks for the slice from 0 and the stored FCS has the whole frame. Rests on the
spec's own decisions D3 and D8. -/
def Obligations.FrameBytesReadsBackTheFrame : Prop :=
  ∀ s : State, s.BufExact → 2 ≤ s.size.toNat → ∃ a b : Response,
    exec (.payloadSlice 0#16) s = .next { s with responses := s.responses ++ [a], k := s.k + 1 } ∧
    exec .storedFcs s = .next { s with responses := s.responses ++ [b], k := s.k + 1 } ∧
    hostFrameBytes a b = some s.frame

/-- R71, R81, R49 VERIFY. The host's comparison finds no mismatch exactly on the frames that end in the FCS of the
rest. Rests on the spec's own decision D8. -/
def Obligations.VerifyAcceptsExactlySelfConsistentFrames : Prop :=
  ∀ s : State, s.BufExact → 2 ≤ s.size.toNat → ∃ a b : Response,
    exec .storedFcs s = .next { s with responses := s.responses ++ [a], k := s.k + 1 } ∧
    exec .computeFcs s = .next { s with responses := s.responses ++ [b], k := s.k + 1 } ∧
    (hostMismatch a b = false ↔ ∃ p : List Byte, s.frame = p ++ [lo8 (fcs16 p), hi8 (fcs16 p)])

/-! ## The host's byte strings and text -/

/-- R41, R45, R48. The byte string of a list of well-formed commands splits into their words and their data phases.
Rests on the spec's own decisions D2 and D24. -/
def Obligations.StreamSplitsIntoItsCommands : Prop :=
  ∀ is : List Instr, (∀ i ∈ is, i.wf = true) →
    splitStream is.length (is.flatMap encode) = some (is.map encodeWord, is.flatMap dataPhase)

/-- R49; log entry 11 for the line forms R49 leaves open. Lines of the assembler, and the five pseudo-commands, which have
no opcode and stand for the commands R49 lists. -/
def Obligations.AssemblerReadsTheSpecsLines : Prop :=
  assembleLine ['N', 'E', 'W', ' ', '[', '0', '4', ' ', 'A', 'B', ']'] = some [.new [0x04#8, 0xAB#8]] ∧
  assembleLine ['B', 'U', 'I', 'L', 'D', ' ', '[', ']', ' ', ';', 'x'] = some [.build []] ∧
  assembleLine ['P', 'A', 'Y', 'L', 'O', 'A', 'D', '_', 'S', 'T', 'A', 'R', 'T', ' ', '0', 'x', '1', 'F'] =
    some [.payloadStart 31#16] ∧
  assembleLine ['P', 'A', 'Y', 'L', 'O', 'A', 'D', '_', 'S', 'L', 'I', 'C', 'E', ' ', '1', '2'] =
    some [.payloadSlice 12#16] ∧
  assembleLine ['V', 'E', 'R', 'I', 'F', 'Y'] = some [.storedFcs, .computeFcs] ∧
  assembleLine ['P', 'A', 'Y', 'L', 'O', 'A', 'D', '_', 'F', 'I', 'R', 'S', 'T'] = some [.payloadSlice 8#16] ∧
  assembleLine ['P', 'A', 'Y', 'L', 'O', 'A', 'D', '_', 'N', 'E', 'X', 'T'] = some [.payloadSlice 6#16] ∧
  assembleLine ['F', 'R', 'A', 'M', 'E', '_', 'B', 'Y', 'T', 'E', 'S'] = some [.payloadSlice 0#16, .storedFcs] ∧
  assembleLine ['I', 'S', '_', 'W', 'E', 'L', 'L', 'F', 'O', 'R', 'M', 'E', 'D'] = some [.bufferSize]
end

