-- ==== Sys2Proof/Laws/Decode.lean ====
section
/-! SUPPORT. The fields of a packed command word, and the byte order of words. -/

namespace Sys2Proof

@[simp] theorem packWord_op (op : Byte) (arg : U16) : Word.op (packWord op arg) = op := by
  unfold Word.op packWord
  ext i h
  simp [h]
  omega

@[simp] theorem packWord_arg (op : Byte) (arg : U16) : Word.arg (packWord op arg) = arg := by
  unfold Word.arg packWord
  ext i h
  simp [h]
  grind

@[simp] theorem packWord_rsv (op : Byte) (arg : U16) : Word.rsv (packWord op arg) = 0#8 := by
  unfold Word.rsv packWord
  ext i h
  simp only [BitVec.getElem_extractLsb', BitVec.getLsbD_or, BitVec.getLsbD_shiftLeft, BitVec.getLsbD_setWidth]
  simp [BitVec.getLsbD_of_ge op (24 + i) (by omega), BitVec.getLsbD_of_ge arg (24 + i - 8) (by omega)]

/-- A word whose `rsv` is 0 is packed from its two other fields. -/
theorem packWord_fields {w : Word} (h : w.rsv = 0#8) : packWord w.op w.arg = w := by
  ext i hi
  have hr : 24 ≤ i → w[i] = false := by
    intro h24
    have := congrArg (fun v : Byte => v.getLsbD (i - 24)) h
    simpa [Word.rsv, show 24 + (i - 24) = i by omega, show i - 24 < 8 by omega, hi] using this
  simp [packWord, Word.op, Word.arg]
  grind

/-- The bytes of a word give the word back. -/
theorem joinBytes_split (w : Word) :
    joinBytes (w.extractLsb' 0 8) (w.extractLsb' 8 8) (w.extractLsb' 16 8) (w.extractLsb' 24 8) = w := by
  ext i h
  simp [joinBytes]
  grind

@[simp] theorem takeWord_wordBytes (w : Word) (rest : List Byte) : takeWord (wordBytes w ++ rest) = some (w, rest) := by
  simp [takeWord, wordBytes, joinBytes_split]

theorem takeData_eq_some {w : Word} {l data rest : List Byte} :
    takeData w l = some (data, rest) ↔ data.length = w.dataLen ∧ l = data ++ rest := by
  unfold takeData
  constructor
  · split
    · rintro ⟨rfl, rfl⟩; simpa
    · intro h; cases h
  · rintro ⟨h, rfl⟩
    simp [← h]

theorem takeData_eq_none {w : Word} {l : List Byte} : takeData w l = none ↔ l.length < w.dataLen := by
  simp [takeData]

/-! ## What a row selects -/

/-- A packed word selects the row of its opcode that leaves `arg` open. -/
theorem selects_packWord (op : Byte) (arg : U16) (m : String) :
    (OpcodeRow.mk m 0xFF0000FF#32 (op.setWidth 32)).selects (packWord op arg) = true := by
  have h : packWord op arg &&& 0xFF0000FF#32 = op.setWidth 32 := by
    have hm : ∀ i, (0xFF0000FF#32).getLsbD i = (decide (i < 8) || (decide (24 ≤ i) && decide (i < 32))) := by
      intro i
      by_cases hi : i < 32
      · revert i; decide
      · rw [BitVec.getLsbD_of_ge _ _ (by omega)]
        simp; omega
    refine BitVec.eq_of_getLsbD_eq fun i hi => ?_
    rw [BitVec.getLsbD_and, hm, packWord, BitVec.getLsbD_or, BitVec.getLsbD_shiftLeft]
    simp only [BitVec.getLsbD_setWidth]
    by_cases h8 : i < 8
    · simp [h8]
    · rw [BitVec.getLsbD_of_ge op i (by omega)]
      by_cases h24 : 24 ≤ i
      · rw [BitVec.getLsbD_of_ge arg (i - 8) (by omega)]; simp
      · simp [h8, h24]
  simp [OpcodeRow.selects, h]

/-- A row that fixes all 32 bits selects one word. -/
theorem selects_exact {w : Word} {m : String} {v : Word} :
    (OpcodeRow.mk m 0xFFFFFFFF#32 v).selects w = true ↔ w = v := by
  simp [OpcodeRow.selects, show (0xFFFFFFFF#32) = BitVec.allOnes 32 by decide, -BitVec.reduceAllOnes]

/-- A row that leaves `arg` open selects the words with its `op` and with `rsv = 0`. -/
theorem selects_open_arg {w : Word} {m : String} {op : Byte} :
    (OpcodeRow.mk m 0xFF0000FF#32 (op.setWidth 32)).selects w = true ↔ w.rsv = 0#8 ∧ w.op = op := by
  constructor
  · intro h
    have hw : w &&& 0xFF0000FF#32 = op.setWidth 32 := by simpa [OpcodeRow.selects] using h
    have field : ∀ k, BitVec.extractLsb' k 8 0xFF0000FF#32 = BitVec.allOnes 8 →
        w.extractLsb' k 8 = (op.setWidth 32).extractLsb' k 8 := by
      intro k hk
      rw [← hw, BitVec.extractLsb'_and, hk, BitVec.and_allOnes]
    refine ⟨(field 24 (by decide)).trans ?_, (field 0 (by decide)).trans ?_⟩
    · ext i hi
      simp [BitVec.getLsbD_of_ge op (24 + i) (by omega)]
    · ext i hi
      simp
      grind
  · rintro ⟨h, rfl⟩
    have := selects_packWord w.op w.arg m
    rwa [packWord_fields h] at this

end Sys2Proof
end

