-- ==== Sys2Proof/Laws/State.lean ====
section
/-! SUPPORT. One lemma per field per state update, so that no proof unfolds a record update; and what the two ways a
command ends answer. -/

namespace Sys2Proof.Machine

section respond
variable (s : State) (r : Response)
@[simp] theorem respond_maxFrameBytes : (s.respond r).maxFrameBytes = s.maxFrameBytes := rfl
@[simp] theorem respond_buf : (s.respond r).buf = s.buf := rfl
@[simp] theorem respond_size : (s.respond r).size = s.size := rfl
@[simp] theorem respond_hostEvents : (s.respond r).hostEvents = s.hostEvents := rfl
@[simp] theorem respond_dataIn : (s.respond r).dataIn = s.dataIn := rfl
@[simp] theorem respond_k : (s.respond r).k = s.k + 1 := rfl
@[simp] theorem respond_responses : (s.respond r).responses = s.responses ++ [r] := rfl
@[simp] theorem respond_frame : (s.respond r).frame = s.frame := rfl
@[simp] theorem respond_readByte (p : Nat) : (s.respond r).readByte p = s.readByte p := rfl
@[simp] theorem respond_trailerPos : (s.respond r).trailerPos = s.trailerPos := rfl
end respond

section loadFrame
variable (s : State) (d : List Byte)
@[simp] theorem loadFrame_maxFrameBytes : (s.loadFrame d).maxFrameBytes = s.maxFrameBytes := rfl
@[simp] theorem loadFrame_buf : (s.loadFrame d).buf = Memory.fill 0 d := rfl
@[simp] theorem loadFrame_size : (s.loadFrame d).size = BitVec.ofNat 16 d.length := rfl
@[simp] theorem loadFrame_hostEvents : (s.loadFrame d).hostEvents = s.hostEvents := rfl
@[simp] theorem loadFrame_dataIn : (s.loadFrame d).dataIn = s.dataIn := rfl
@[simp] theorem loadFrame_k : (s.loadFrame d).k = s.k := rfl
@[simp] theorem loadFrame_responses : (s.loadFrame d).responses = s.responses := rfl
end loadFrame

section resetEvent
variable (s : State)
@[simp] theorem resetEvent_maxFrameBytes : s.resetEvent.maxFrameBytes = s.maxFrameBytes := rfl
@[simp] theorem resetEvent_buf : s.resetEvent.buf = [] := rfl
@[simp] theorem resetEvent_size : s.resetEvent.size = 0#16 := rfl
@[simp] theorem resetEvent_hostEvents : s.resetEvent.hostEvents = s.hostEvents := rfl
@[simp] theorem resetEvent_dataIn : s.resetEvent.dataIn = s.dataIn := rfl
@[simp] theorem resetEvent_k : s.resetEvent.k = s.k := rfl
@[simp] theorem resetEvent_responses : s.resetEvent.responses = s.responses := rfl
end resetEvent

section consume
variable (s : State) (d : List Byte)
@[simp] theorem consume_maxFrameBytes : (s.consume d).maxFrameBytes = s.maxFrameBytes := rfl
@[simp] theorem consume_buf : (s.consume d).buf = s.buf := rfl
@[simp] theorem consume_size : (s.consume d).size = s.size := rfl
@[simp] theorem consume_hostEvents : (s.consume d).hostEvents = s.hostEvents.tail := rfl
@[simp] theorem consume_dataIn : (s.consume d).dataIn = d := rfl
@[simp] theorem consume_k : (s.consume d).k = s.k := rfl
@[simp] theorem consume_responses : (s.consume d).responses = s.responses := rfl
end consume

section issueFirst
variable (s : State) (w : Word) (d : List Byte)
@[simp] theorem issueFirst_maxFrameBytes : (s.issueFirst w d).maxFrameBytes = s.maxFrameBytes := rfl
@[simp] theorem issueFirst_buf : (s.issueFirst w d).buf = s.buf := rfl
@[simp] theorem issueFirst_size : (s.issueFirst w d).size = s.size := rfl
@[simp] theorem issueFirst_hostEvents : (s.issueFirst w d).hostEvents = .command w :: s.hostEvents := rfl
@[simp] theorem issueFirst_dataIn : (s.issueFirst w d).dataIn = d ++ s.dataIn := rfl
@[simp] theorem issueFirst_k : (s.issueFirst w d).k = s.k := rfl
@[simp] theorem issueFirst_responses : (s.issueFirst w d).responses = s.responses := rfl
end issueFirst

section issue
variable (s : State) (i : Instr)
@[simp] theorem issue_maxFrameBytes : (s.issue i).maxFrameBytes = s.maxFrameBytes := rfl
@[simp] theorem issue_buf : (s.issue i).buf = s.buf := rfl
@[simp] theorem issue_size : (s.issue i).size = s.size := rfl
@[simp] theorem issue_hostEvents : (s.issue i).hostEvents = s.hostEvents ++ [.command (encodeWord i)] := rfl
@[simp] theorem issue_dataIn : (s.issue i).dataIn = s.dataIn ++ dataPhase i := rfl
@[simp] theorem issue_k : (s.issue i).k = s.k := rfl
@[simp] theorem issue_responses : (s.issue i).responses = s.responses := rfl
end issue

/-! ## How a command ends -/

@[simp] theorem answer_eq_next (v : U16) (d : List Byte) (s t : State) :
    answer v d s = .next t ↔ t = s.respond (.ok v d) := by
  simp only [answer, Host.Outcome.next.injEq, eq_comm]

@[simp] theorem raise_eq_next (e : ErrorKind) (s t : State) : raise e s = .next t ↔ t = s.respond (.err e) := by
  simp only [raise, Host.Outcome.next.injEq, eq_comm]

@[simp] theorem answer_ne_fault (v : U16) (d : List Byte) (s : State) (f : Fault) : answer v d s ≠ .fault f := by
  simp [answer]

@[simp] theorem raise_ne_fault (e : ErrorKind) (s : State) (f : Fault) : raise e s ≠ .fault f := by
  simp [raise]

@[simp] theorem answer_ne_refused (v : U16) (d : List Byte) (s : State) (f : Refusal) : answer v d s ≠ .refused f := by
  simp [answer]

@[simp] theorem raise_ne_refused (e : ErrorKind) (s : State) (f : Refusal) : raise e s ≠ .refused f := by
  simp [raise]

end Sys2Proof.Machine
end

