-- ==== Sys2Proof/Laws/Memory.lean ====
section
/-! SUPPORT. The frame buffer: its canonical form, what a whole-frame write leaves to be read, and reads in a state whose
buffer is exact. -/

namespace Sys2Proof.Machine

/-! ## The write -/

theorem fill_positions (d : List Byte) : ∀ base, (Memory.fill base d).map Prod.fst = List.range' base d.length := by
  induction d with
  | nil => intro base; rfl
  | cons b bs ih => intro base; simp [Memory.fill, ih, List.range'_succ]

@[simp] theorem fill_bytes (d : List Byte) : ∀ base, (Memory.fill base d).map Prod.snd = d := by
  induction d with
  | nil => intro base; rfl
  | cons b bs ih => intro base; simp [Memory.fill, ih]

/-- A read after the write gives the byte written, and nothing beyond it. -/
theorem read_fill (d : List Byte) : ∀ base i, (Memory.fill base d).read (base + i) = d[i]? := by
  induction d with
  | nil => intro base i; rfl
  | cons b bs ih =>
    intro base i
    cases i with
    | zero => simp [Memory.fill, Memory.read]
    | succ i =>
      have h := ih (base + 1) i
      rw [show base + (i + 1) = base + 1 + i by omega]
      simp [Memory.fill, Memory.read, h, show base ≠ base + 1 + i by omega]

/-- A buffer whose positions are consecutive is the write of its own bytes. -/
theorem fill_of_positions : ∀ (m : Memory) base, m.map Prod.fst = List.range' base m.length →
    m = Memory.fill base (m.map Prod.snd) := by
  intro m
  induction m with
  | nil => intro base _; rfl
  | cons c m ih =>
    intro base h
    simp only [List.map_cons, List.length_cons, List.range'_succ, List.cons.injEq] at h
    obtain ⟨h0, h1⟩ := h
    have := ih (base + 1) h1
    rw [List.map_cons, Memory.fill, ← this, ← h0]

/-- A whole-frame write is in canonical form. -/
theorem fill_wf (d : List Byte) : ∀ base, (Memory.fill base d).wf = true := by
  induction d with
  | nil => intro base; rfl
  | cons b bs ih =>
    intro base
    cases bs with
    | nil => rfl
    | cons c cs =>
      have h := ih (base + 1)
      simp only [Memory.fill, Memory.wf] at h ⊢
      simp [h]

/-! ## Canonical form through the operations that touch the buffer -/

theorem reset_buf_wf : State.reset.buf.wf = true := rfl

theorem loadFrame_wf (s : State) (d : List Byte) : (s.loadFrame d).buf.wf = true := fill_wf d 0

theorem resetEvent_wf (s : State) : s.resetEvent.buf.wf = true := rfl

/-! ## Reads of an exact buffer -/

variable {s : State}

theorem BufExact.length (h : s.BufExact) : s.buf.length = s.size.toNat := by
  have := congrArg List.length h
  simpa using this

theorem BufExact.frame_length (h : s.BufExact) : s.frame.length = s.size.toNat := by
  simp [State.frame, BufExact.length h]

theorem BufExact.buf_eq (h : s.BufExact) : s.buf = Memory.fill 0 s.frame := by
  apply fill_of_positions
  rw [BufExact.length h, h, List.range_eq_range']

theorem BufExact.wf (h : s.BufExact) : s.buf.wf = true := by
  rw [BufExact.buf_eq h]; exact fill_wf _ _

/-- `BUF[p]` is the frame's byte at `p`. -/
theorem BufExact.readByte (h : s.BufExact) (p : Nat) : s.readByte p = s.frame[p]? := by
  have hr := read_fill s.frame 0 p
  rw [Nat.zero_add, ← BufExact.buf_eq h] at hr
  have hl := BufExact.frame_length h
  unfold State.readByte
  split
  · exact hr
  · exact (List.getElem?_eq_none (by omega)).symm

theorem BufExact.readByte_lt (h : s.BufExact) {p : Nat} (hp : p < s.size.toNat) :
    ∃ b, s.readByte p = some b := by
  have hl := BufExact.frame_length h
  exact ⟨s.frame[p], by rw [BufExact.readByte h, List.getElem?_eq_getElem]⟩

/-- A 16-bit read inside the frame is the little-endian pair of its two bytes. -/
theorem BufExact.readLe16 (h : s.BufExact) {p : Nat} (hp : p + 2 ≤ s.size.toNat) :
    ∃ lo hi, s.readByte p = some lo ∧ s.readByte (p + 1) = some hi ∧ s.readLe16 p = some (le16 lo hi) := by
  obtain ⟨lo, hlo⟩ := BufExact.readByte_lt h (p := p) (by omega)
  obtain ⟨hi, hhi⟩ := BufExact.readByte_lt h (p := p + 1) (by omega)
  exact ⟨lo, hi, hlo, hhi, by simp [State.readLe16, hlo, hhi]⟩

/-- A range read inside the frame is that stretch of the frame. -/
theorem BufExact.readRange (h : s.BufExact) : ∀ n p, p + n ≤ s.size.toNat →
    s.readRange p n = some ((s.frame.drop p).take n) := by
  intro n
  induction n with
  | zero => intro p _; simp [State.readRange]
  | succ n ih =>
    intro p hp
    have hl := BufExact.frame_length h
    have hlt : p < s.frame.length := by omega
    have hb : s.readByte p = some s.frame[p] := by rw [BufExact.readByte h, List.getElem?_eq_getElem hlt]
    have hd : s.frame.drop p = s.frame[p] :: s.frame.drop (p + 1) := List.drop_eq_getElem_cons hlt
    rw [hd, List.take_succ_cons, State.readRange, hb, ih (p + 1) (by omega)]

/-! ## What the whole-frame write leaves -/

@[simp] theorem loadFrame_frame (s : State) (d : List Byte) : (s.loadFrame d).frame = d := by simp [State.frame]

theorem loadFrame_size_toNat (s : State) {d : List Byte} (h : d.length < 65536) :
    (s.loadFrame d).size.toNat = d.length := by
  rw [loadFrame_size, BitVec.toNat_ofNat]
  exact Nat.mod_eq_of_lt h

theorem loadFrame_exact (s : State) {d : List Byte} (h : d.length < 65536) : (s.loadFrame d).BufExact := by
  simp only [State.BufExact, loadFrame_size_toNat s h, loadFrame_buf, fill_positions, List.range_eq_range']

/-- A read after a whole-frame write gives the byte written. -/
theorem loadFrame_readByte (s : State) {d : List Byte} (h : d.length < 65536) (p : Nat) :
    (s.loadFrame d).readByte p = d[p]? := by
  rw [BufExact.readByte (loadFrame_exact s h), loadFrame_frame]

theorem loadFrame_within {s : State} (hc : s.WithinCapacity) {d : List Byte} (h : d.length ≤ s.maxFrameBytes.toNat) :
    (s.loadFrame d).WithinCapacity := by
  refine ⟨?_, hc.2⟩
  have := s.maxFrameBytes.isLt
  rw [BitVec.le_def, loadFrame_size_toNat s (by omega)]
  exact h

end Sys2Proof.Machine
end

