-- ==== Sys2Proof/Laws/Ops.lean ====
section
/-! SUPPORT. Once for each shared operation: everything it can answer. Then once for `exec` and once for `step`: every
way a command or a step can end. -/

namespace Sys2Proof.Machine

/-! ## Byte order -/

@[simp] theorem le16_split (v : U16) : le16 (lo8 v) (hi8 v) = v := by
  unfold le16 lo8 hi8 zext16
  ext i h
  simp
  grind

@[simp] theorem lo8_le16 (lo hi : Byte) : lo8 (le16 lo hi) = lo := by
  unfold le16 lo8 zext16
  ext i h
  simp [h]
  grind

@[simp] theorem hi8_le16 (lo hi : Byte) : hi8 (le16 lo hi) = hi := by
  unfold le16 hi8 zext16
  ext i h
  simp [h, show 8 + i < 16 by omega]

@[simp] theorem fcsTrailer_length (p : List Byte) : (fcsTrailer p).length = 2 := rfl

/-! ## The checks -/

theorem headerError_eq_none {s : State} : headerError s = none ↔ 10 ≤ s.size.toNat := by
  simp [headerError, wellFormedSize, BitVec.lt_def]

theorem trailerError_eq_none {s : State} : trailerError s = none ↔ 2 ≤ s.size.toNat := by
  simp only [trailerError, trailerSize, BitVec.lt_def, BitVec.toNat_ofNat]
  split <;> simp <;> omega

theorem trailerPos_toNat {s : State} (h : 2 ≤ s.size.toNat) : s.trailerPos.toNat = s.size.toNat - 2 := by
  have := s.size.isLt
  simp only [State.trailerPos, trailerSize, BitVec.toNat_sub, BitVec.toNat_ofNat]
  omega

theorem offsetError_eq_none {offset : U16} {s : State} :
    offsetError offset s = none ↔ 2 ≤ s.size.toNat ∧ offset.toNat + 2 ≤ s.size.toNat := by
  unfold offsetError
  by_cases h : 2 ≤ s.size.toNat
  · have := trailerPos_toNat h
    have h2 : ¬ s.size < trailerSize := by simp only [trailerSize, BitVec.lt_def, BitVec.toNat_ofNat]; omega
    rw [if_neg h2]
    split <;> rename_i ho <;> rw [BitVec.lt_def, this] at ho <;> simp <;> omega
  · have h2 : s.size < trailerSize := by simp only [trailerSize, BitVec.lt_def, BitVec.toNat_ofNat]; omega
    simp [h2, h]

theorem headerError_small {s : State} (h : s.size.toNat < 10) : headerError s = some .malformedFrame := by
  have hs : s.size < wellFormedSize := by simp only [wellFormedSize, BitVec.lt_def, BitVec.toNat_ofNat]; omega
  rw [headerError, if_pos hs]

theorem trailerError_small {s : State} (h : s.size.toNat < 2) : trailerError s = some .malformedFrame := by
  have hs : s.size < trailerSize := by simp only [trailerSize, BitVec.lt_def, BitVec.toNat_ofNat]; omega
  rw [trailerError, if_pos hs]

theorem offsetError_small (offset : U16) {s : State} (h : s.size.toNat < 2) :
    offsetError offset s = some .malformedFrame := by
  have hs : s.size < trailerSize := by simp only [trailerSize, BitVec.lt_def, BitVec.toNat_ofNat]; omega
  rw [offsetError, if_pos hs]

theorem offsetError_beyond {offset : U16} {s : State} (h : 2 ≤ s.size.toNat) (ho : s.size.toNat - 2 < offset.toNat) :
    offsetError offset s = some .invalidOffset := by
  have hs : ¬ s.size < trailerSize := by simp only [trailerSize, BitVec.lt_def, BitVec.toNat_ofNat]; omega
  rw [offsetError, if_neg hs, if_pos (by rw [BitVec.lt_def, trailerPos_toNat h]; exact ho)]

/-- The number of bytes PAYLOAD_SLICE reads, once the offset is accepted. -/
theorem sliceCount_toNat {offset : U16} {s : State} (h : 2 ≤ s.size.toNat) (ho : offset.toNat + 2 ≤ s.size.toNat) :
    (s.trailerPos - offset).toNat = s.size.toNat - 2 - offset.toNat := by
  have := trailerPos_toNat h
  have := s.size.isLt
  rw [BitVec.toNat_sub]
  omega

/-! ## The field commands -/

/-- A field command answers an error of its check, the field, or stops where the field's bytes are not there. -/
theorem answerField_cases (e : Option ErrorKind) (p : Nat) (s : State) :
    (∃ kind, e = some kind ∧ answerField e p s = raise kind s) ∨
    (∃ v, e = none ∧ s.readLe16 p = some v ∧ answerField e p s = answer v [] s) ∨
    (e = none ∧ s.readLe16 p = none ∧ answerField e p s = .fault .undefinedPosition) := by
  unfold answerField
  cases e with
  | some kind => exact .inl ⟨kind, rfl, rfl⟩
  | none =>
    cases h : s.readLe16 p with
    | some v => exact .inr (.inl ⟨v, rfl, rfl, rfl⟩)
    | none => exact .inr (.inr ⟨rfl, rfl, rfl⟩)

/-! ## Every way a command ends -/

/-- What `exec` can answer: a Response with the frame as it was; a whole new frame that fits, with `OK 0` (constructors
only); or a stop at a position that holds no byte. -/
inductive ExecEnds (i : Instr) (s : State) : Host.Outcome State Fault Refusal → Prop where
  | responds (r : Response) : ExecEnds i s (.next (s.respond r))
  | loads (d : List Byte) (hc : i.isConstructor = true) (hd : d.length ≤ s.maxFrameBytes.toNat) :
      ExecEnds i s (.next ((s.loadFrame d).respond (.ok 0#16 [])))
  | stops (hb : ¬ s.BufExact) : ExecEnds i s (.fault .undefinedPosition)

theorem answerField_ends (i : Instr) (e : Option ErrorKind) (p : Nat) (s : State)
    (hp : e = none → p + 2 ≤ s.size.toNat) : ExecEnds i s (answerField e p s) := by
  obtain ⟨kind, -, h⟩ | ⟨v, -, -, h⟩ | ⟨he, hn, h⟩ := answerField_cases e p s <;> rw [h]
  · exact .responds _
  · exact .responds _
  · refine .stops fun hb => ?_
    obtain ⟨lo, hi, -, -, hr⟩ := BufExact.readLe16 hb (hp he)
    simp [hr] at hn

theorem headerField_ends (i : Instr) (off : Nat) (s : State) (ho : off + 2 ≤ 10) :
    ExecEnds i s (headerField off s) :=
  answerField_ends i _ off s fun he => by have := headerError_eq_none.mp he; omega

theorem execPayloadSlice_ends (offset : U16) (s : State) :
    ExecEnds (.payloadSlice offset) s (execPayloadSlice offset s) := by
  unfold execPayloadSlice
  split
  · exact .responds _
  · rename_i he
    obtain ⟨h2, ho⟩ := offsetError_eq_none.mp he
    split
    · exact .responds _
    · rename_i hn
      refine .stops fun hb => ?_
      have := BufExact.readRange hb (s.trailerPos - offset).toNat offset.toNat (by rw [sliceCount_toNat h2 ho]; omega)
      rw [this] at hn
      cases hn

theorem execComputeFcs_ends (s : State) : ExecEnds .computeFcs s (execComputeFcs s) := by
  unfold execComputeFcs
  split
  · exact .responds _
  · rename_i he
    have h2 := trailerError_eq_none.mp he
    split
    · exact .responds _
    · rename_i hn
      refine .stops fun hb => ?_
      have := BufExact.readRange hb s.trailerPos.toNat 0 (by rw [trailerPos_toNat h2]; omega)
      simp [this] at hn

theorem exec_ends (i : Instr) (s : State) : ExecEnds i s (exec i s) := by
  cases i with
  | new d =>
    simp only [exec, execNew]
    split
    · exact .responds _
    · exact .loads d rfl (by omega)
  | build p =>
    simp only [exec, execBuild]
    split
    · exact .responds _
    · exact .loads _ rfl (by simp; omega)
  | length => exact headerField_ends _ 0 s (by omega)
  | channelId => exact headerField_ends _ 2 s (by omega)
  | totalL2capLength => exact headerField_ends _ 4 s (by omega)
  | controls => exact headerField_ends _ 6 s (by omega)
  | storedFcs =>
    refine answerField_ends _ _ _ s fun he => ?_
    have := trailerError_eq_none.mp he
    rw [trailerPos_toNat this]
    omega
  | bufferSize => exact .responds _
  | payloadStart offset =>
    simp only [exec, execPayloadStart]
    split <;> exact .responds _
  | payloadEnd =>
    simp only [exec, execPayloadEnd]
    split <;> exact .responds _
  | payloadSlice offset => exact execPayloadSlice_ends offset s
  | computeFcs => exact execComputeFcs_ends s

/-! ## Every way a step begins -/

/-- What `fetch` can answer, by the head of the host's list. -/
inductive FetchFinds (s : State) : Fetched → Prop where
  | nothing (h : s.hostEvents = []) : FetchFinds s .endOfRun
  | reset (rest : List HostEvent) (h : s.hostEvents = .reset :: rest) : FetchFinds s (.reset (s.consume s.dataIn))
  | starved (w : Word) (rest : List HostEvent) (h : s.hostEvents = .command w :: rest)
      (hd : s.dataIn.length < w.dataLen) : FetchFinds s .starved
  | illegal (w : Word) (rest : List HostEvent) (data after : List Byte) (e : Reject)
      (h : s.hostEvents = .command w :: rest) (hl : data.length = w.dataLen) (hd : s.dataIn = data ++ after)
      (he : decode w data = .error e) : FetchFinds s (.illegal (s.consume after))
  | command (w : Word) (rest : List HostEvent) (data after : List Byte) (i : Instr)
      (h : s.hostEvents = .command w :: rest) (hl : data.length = w.dataLen) (hd : s.dataIn = data ++ after)
      (hi : decode w data = .ok i) : FetchFinds s (.command i (s.consume after))

theorem fetch_finds (s : State) : FetchFinds s (fetch s) := by
  unfold fetch
  split
  · next h => exact .nothing h
  · next h => exact .reset _ h
  · next w rest h =>
    split
    · next hd => exact .starved w rest h (takeData_eq_none.mp hd)
    · next data after hd =>
      obtain ⟨hl, ha⟩ := takeData_eq_some.mp hd
      split
      · next e he => exact .illegal w rest data after e h hl ha he
      · next i hi => exact .command w rest data after i h hl ha hi

/-! ## Every way a step ends -/

/-- What `step` can answer, by the head of the host's list. -/
inductive StepEnds (s : State) : Host.Outcome State Fault Refusal → Prop where
  | endOfRun (h : s.hostEvents = []) : StepEnds s (.fault .endOfRun)
  | starved (w : Word) (rest : List HostEvent) (h : s.hostEvents = .command w :: rest)
      (hd : s.dataIn.length < w.dataLen) : StepEnds s (.fault .dataPhaseIncomplete)
  | reset (rest : List HostEvent) (h : s.hostEvents = .reset :: rest) :
      StepEnds s (.next (s.consume s.dataIn).resetEvent)
  | illegal (w : Word) (rest : List HostEvent) (data after : List Byte) (e : Reject)
      (h : s.hostEvents = .command w :: rest) (hl : data.length = w.dataLen) (hd : s.dataIn = data ++ after)
      (he : decode w data = .error e) : StepEnds s (.next ((s.consume after).respond (.err .illegalCommand)))
  | command (w : Word) (rest : List HostEvent) (data after : List Byte) (i : Instr)
      (o : Host.Outcome State Fault Refusal) (h : s.hostEvents = .command w :: rest) (hl : data.length = w.dataLen)
      (hd : s.dataIn = data ++ after) (hi : decode w data = .ok i) (ho : ExecEnds i (s.consume after) o) :
      StepEnds s o

theorem step_ends (s : State) : StepEnds s (step s) := by
  have hf := fetch_finds s
  unfold step
  generalize fetch s = f at hf
  cases hf with
  | nothing h => exact .endOfRun h
  | reset rest h => exact .reset rest h
  | starved w rest h hd => exact .starved w rest h hd
  | illegal w rest data after e h hl hd he => exact .illegal w rest data after e h hl hd he
  | command w rest data after i h hl hd hi => exact .command w rest data after i _ h hl hd hi (exec_ends _ _)

end Sys2Proof.Machine
end

