-- ==== Sys2Proof/Laws/Fcs.lean ====
section
/-! SUPPORT. The FCS loop as a recursion, and the table's index. -/

namespace Sys2Proof.Machine

@[simp] theorem fcsFrom_nil (crc : U16) : fcsFrom crc [] = crc := rfl

@[simp] theorem fcsFrom_cons (crc : U16) (b : Byte) (bs : List Byte) :
    fcsFrom crc (b :: bs) = fcsFrom (fcsStep crc b) bs := rfl

/-- The table has exactly the 256 entries `0..255`. -/
theorem fcsTable_length : fcsTable.length = 256 := by
  simp only [fcsTable, List.length_append]
  rfl

/-- Every table access of the FCS loop is inside the table (20_memory.md R27). -/
theorem fcsIndex_lt (crc : U16) (b : Byte) : ((crc ^^^ zext16 b) &&& 0x00FF#16).toNat < fcsTable.length := by
  rw [fcsTable_length, BitVec.toNat_and]
  exact Nat.lt_of_le_of_lt Nat.and_le_right (by decide)

/-- The index is the low byte of the state exclusive-or the input byte (43_fcs.md R67). -/
theorem fcsIndex_eq (crc : U16) (b : Byte) : (crc ^^^ zext16 b) &&& 0x00FF#16 = zext16 (lo8 crc ^^^ b) := by
  have mask : ∀ i, (0x00FF#16).getLsbD i = decide (i < 8) := by
    intro i
    by_cases hi : i < 16
    · revert i; decide
    · rw [BitVec.getLsbD_of_ge _ _ (by omega)]; simp; omega
  refine BitVec.eq_of_getLsbD_eq fun i hi => ?_
  rw [BitVec.getLsbD_and, mask]
  by_cases h : i < 8
  · simp [zext16, lo8, hi, h]
  · simp [zext16, hi, h, BitVec.getLsbD_of_ge (lo8 crc) i (by omega), BitVec.getLsbD_of_ge b i (by omega)]

theorem fcsStep_eq (crc : U16) (b : Byte) : fcsStep crc b = tableAt (zext16 (lo8 crc ^^^ b)) ^^^ (crc >>> 8) := by
  rw [fcsStep, fcsIndex_eq]

end Sys2Proof.Machine
end

