-- ==== Sys2Proof/Laws/PerInstr.lean ====
section
/-! SUPPORT. One statement for all commands, one lemma per constructor: the word a command is encoded as selects the
command's own row of the opcode table (30_encoding.md R43) and announces exactly the data phase the command has (R45). -/

namespace Sys2Proof.Laws.WordSelectsRow

/-- The statement of the family, about a command as it is written. -/
def Statement (i : Instr) : Prop :=
  i.wf = true → i.row.selects (encodeWord i) = true ∧ (encodeWord i).dataLen = (dataPhase i).length

theorem dataLen_constructor {op : Byte} (hop : op = 0x01#8 ∨ op = 0x02#8) {n : Nat} (hn : n < 65536) :
    Word.dataLen (packWord op (BitVec.ofNat 16 n)) = n := by
  rcases hop with rfl | rfl <;> simp [Word.dataLen, Word.hasData, Nat.mod_eq_of_lt hn]

theorem dataLen_other {op : Byte} (h1 : op ≠ 0x01#8) (h2 : op ≠ 0x02#8) (arg : U16) :
    Word.dataLen (packWord op arg) = 0 := by
  simp [Word.dataLen, Word.hasData, h1, h2]

theorem new (d : List Byte) : Statement (.new d) := fun h =>
  ⟨selects_packWord 0x01#8 _ _, dataLen_constructor (.inl rfl) (by simpa [Instr.wf] using h)⟩

theorem build (p : List Byte) : Statement (.build p) := fun h =>
  ⟨selects_packWord 0x02#8 _ _, dataLen_constructor (.inr rfl) (by simpa [Instr.wf] using h)⟩

theorem length : Statement .length := fun _ => by decide

theorem channelId : Statement .channelId := fun _ => by decide

theorem totalL2capLength : Statement .totalL2capLength := fun _ => by decide

theorem controls : Statement .controls := fun _ => by decide

theorem storedFcs : Statement .storedFcs := fun _ => by decide

theorem bufferSize : Statement .bufferSize := fun _ => by decide

theorem payloadStart (offset : U16) : Statement (.payloadStart offset) := fun _ =>
  ⟨selects_packWord 0x20#8 _ _, dataLen_other (by decide) (by decide) _⟩

theorem payloadEnd : Statement .payloadEnd := fun _ => by decide

theorem payloadSlice (offset : U16) : Statement (.payloadSlice offset) := fun _ =>
  ⟨selects_packWord 0x22#8 _ _, dataLen_other (by decide) (by decide) _⟩

theorem computeFcs : Statement .computeFcs := fun _ => by decide

end Sys2Proof.Laws.WordSelectsRow
end

