-- ==== Sys2Proof/Tests/Slice0.lean ====
section
/-! SUPPORT. Small tests on fixed values, each expected result from spec/95_test_vectors.md (its identifier is named) or
from the rule named, and for each statement with hypotheses a state that meets them all. -/

namespace Sys2Proof.Tests

open Sys2Proof.Machine

/-- A state holding a frame, otherwise as after reset. -/
def held (bytes : List Byte) : State := State.reset.loadFrame bytes

/-- The same with a capacity of 16 bytes (D-CON-9). -/
def held16 (bytes : List Byte) : State := { held bytes with maxFrameBytes := 16#16 }

/-- The source's example frame E. -/
def frameE : List Byte := [0x04, 0x00, 0x48, 0x00, 0x04, 0x00, 0xAB, 0xCD, 0x78, 0x56]

/-- The 12-byte frame of D-EXT-5. -/
def frame12 : List Byte := [0x06, 0x00, 0x48, 0x00, 0x02, 0x00, 0x00, 0x00, 0x11, 0x22, 0x68, 0x22]

/-- The Response a step or command ends with, and the frame it leaves. -/
def ends : Host.Outcome State Fault Refusal → Option (Response × List Byte)
  | .next t => t.responses.getLast?.map fun r => (r, t.frame)
  | .fault _ => none
  | .refused _ => none

/-- The stop a step ends with. -/
def stops : Host.Outcome State Fault Refusal → Option Fault
  | .next _ => none
  | .fault f => some f
  | .refused _ => none

/-- A host about to send one word and its data bytes. -/
def sending (s : State) (w : Word) (data : List Byte) : State := s.issueFirst w data

/-! ## Well-formedness -/

theorem test_wf_refuses_long_new : (Instr.new (List.replicate 65536 0)).wf = false := by
  rw [Instr.wf, List.length_replicate]; decide
theorem test_wf_refuses_long_build : (Instr.build (List.replicate 65536 0)).wf = false := by
  rw [Instr.wf, List.length_replicate]; decide
theorem test_wf_accepts_longest_new : (Instr.new (List.replicate 65535 0)).wf = true := by
  rw [Instr.wf, List.length_replicate]; decide

/-! ## Decoding: each command's word from R43, written out -/

theorem test_decode_new : decode 0x00000201 [0xAA, 0xBB] = .ok (.new [0xAA, 0xBB]) := by decide
theorem test_decode_build : decode 0x00000102 [0x01] = .ok (.build [0x01]) := by decide
theorem test_decode_length : decode 0x00000010 [] = .ok .length := by decide
theorem test_decode_channelId : decode 0x00000011 [] = .ok .channelId := by decide
theorem test_decode_totalL2capLength : decode 0x00000012 [] = .ok .totalL2capLength := by decide
theorem test_decode_controls : decode 0x00000013 [] = .ok .controls := by decide
theorem test_decode_storedFcs : decode 0x00000014 [] = .ok .storedFcs := by decide
theorem test_decode_bufferSize : decode 0x00000015 [] = .ok .bufferSize := by decide
theorem test_decode_payloadStart : decode 0x00000820 [] = .ok (.payloadStart 8) := by decide
theorem test_decode_payloadEnd : decode 0x00000021 [] = .ok .payloadEnd := by decide
theorem test_decode_payloadSlice : decode 0x00FFFF22 [] = .ok (.payloadSlice 65535) := by decide
theorem test_decode_computeFcs : decode 0x00000030 [] = .ok .computeFcs := by decide
/-- D-ENC-11. -/
theorem test_decode_undefined :
    [0x03#32, 0x16#32, 0x1F#32, 0x23#32, 0x31#32, 0xFF#32].map (fun w => decode w []) =
      List.replicate 6 (.error .undefinedOpcode) := by decide
/-- D-ENC-12, D-ENC-13. -/
theorem test_decode_stray : decode 0x00000121 [] = .error .strayOperand ∧
    decode 0x01000301 [1, 2, 3] = .error .reservedBits := by decide
/-- P4 commands 3 and 4 as bytes on the wire. -/
theorem test_stream : splitStream 2 [0x01, 0x05, 0x00, 0x00, 0x01, 0x02, 0x03, 0x04, 0x05, 0x15, 0x00, 0x00, 0x00] =
    some ([0x00000501, 0x00000015], [0x01, 0x02, 0x03, 0x04, 0x05]) := by decide
theorem test_table_word : decodeTableWord 32 0x00000201 = some (.new [0, 0]) ∧ decodeTableWord 32 0x110 = none := by decide
/-- R49. -/
theorem test_asm_refuses : assembleLine ['L', 'E', 'N', 'G', 'T', 'H', ' ', '1'] = none ∧
    assembleLine ['N', 'E', 'W', ' ', '[', '4', ']'] = none := by decide

/-! ## Meanings -/

/-- D-CON-8. -/
theorem test_new_replaces : ends (exec (.new [0x07]) (held frameE)) = some (.ok 0 [], [0x07]) := by decide
/-- D-CON-10. -/
theorem test_new_too_long : ends (exec (.new (List.replicate 17 1)) (held16 frameE)) =
    some (.err .capacityExceeded, frameE) := by decide
/-- D-CON-4. -/
theorem test_build : ends (exec (.build [0x04, 0x00, 0x48, 0x00, 0x04, 0x00, 0xAB, 0xCD]) State.reset) =
    some (.ok 0 [], [0x04, 0x00, 0x48, 0x00, 0x04, 0x00, 0xAB, 0xCD, 0xB1, 0xEE]) := by decide
/-- D-CON-9. -/
theorem test_build_too_long : ends (exec (.build (List.replicate 15 1)) (held16 frameE)) =
    some (.err .capacityExceeded, frameE) := by decide
/-- S1. -/
theorem test_length : ends (exec .length (held frameE)) = some (.ok 0x0004 [], frameE) := by decide
/-- D-ACC-3. -/
theorem test_length_nine : ends (exec .length (held (frameE.take 9))) =
    some (.err .malformedFrame, frameE.take 9) := by decide
/-- D-ACC-1. -/
theorem test_channelId : ends (exec .channelId (held [0xFF, 0xFF, 0xFE, 0xFF, 0x00, 0x80, 0x01, 0x00, 0x00, 0x00])) =
    some (.ok 0xFFFE [], [0xFF, 0xFF, 0xFE, 0xFF, 0x00, 0x80, 0x01, 0x00, 0x00, 0x00]) := by decide
/-- D-ACC-1. -/
theorem test_totalL2capLength :
    ends (exec .totalL2capLength (held [0xFF, 0xFF, 0xFE, 0xFF, 0x00, 0x80, 0x01, 0x00, 0x00, 0x00])) =
    some (.ok 0x8000 [], [0xFF, 0xFF, 0xFE, 0xFF, 0x00, 0x80, 0x01, 0x00, 0x00, 0x00]) := by decide
/-- S1. -/
theorem test_controls : ends (exec .controls (held frameE)) = some (.ok 0xCDAB [], frameE) := by decide
/-- D-ACC-7. -/
theorem test_storedFcs_five : ends (exec .storedFcs (held [1, 2, 3, 4, 5])) = some (.ok 0x0504 [], [1, 2, 3, 4, 5]) := by
  decide
/-- D-ACC-9. -/
theorem test_storedFcs_one : ends (exec .storedFcs (held [7])) = some (.err .malformedFrame, [7]) := by decide
/-- D-ACC-2. -/
theorem test_bufferSize : ends (exec .bufferSize (held frameE)) = some (.ok 0x000A [], frameE) := by decide
/-- D-EXT-5. -/
theorem test_payloadStart_bound : ends (exec (.payloadStart 10) (held frame12)) = some (.ok 10 [], frame12) ∧
    ends (exec (.payloadStart 11) (held frame12)) = some (.err .invalidOffset, frame12) := by decide
/-- D-EXT-9. -/
theorem test_payloadStart_short : ends (exec (.payloadStart 65535) (held [7])) = some (.err .malformedFrame, [7]) := by
  decide
/-- D-EXT-7, D-EXT-9. -/
theorem test_payloadEnd : ends (exec .payloadEnd (held [1, 2, 3, 4, 5])) = some (.ok 3 [], [1, 2, 3, 4, 5]) ∧
    ends (exec .payloadEnd State.reset) = some (.err .malformedFrame, []) := by decide
/-- D-EXT-6. -/
theorem test_payloadSlice : ends (exec (.payloadSlice 7) (held frame12)) =
    some (.ok 3 [0x00, 0x11, 0x22], frame12) := by decide
/-- D-EXT-1, D-EXT-4. -/
theorem test_payloadSlice_bound : ends (exec (.payloadSlice 8) (held frameE)) = some (.ok 0 [], frameE) ∧
    ends (exec (.payloadSlice 9) (held frameE)) = some (.err .invalidOffset, frameE) := by decide
/-- D-FCS-3 at the command level. -/
theorem test_computeFcs : ends (exec .computeFcs (held frameE)) = some (.ok 0xEEB1 [], frameE) := by decide
/-- Section 6 of the vectors: the empty window, and a frame too short. -/
theorem test_computeFcs_short : ends (exec .computeFcs (held [0x12, 0x34])) = some (.ok 0 [], [0x12, 0x34]) ∧
    ends (exec .computeFcs (held [7])) = some (.err .malformedFrame, [7]) := by decide
/-- X3. -/
theorem test_fcs_check_value : fcs16 [0x31, 0x32, 0x33, 0x34, 0x35, 0x36, 0x37, 0x38, 0x39] = 0xBB3D := by decide
/-- Table spot checks of section 6. -/
theorem test_table : [0x00#16, 0x01#16, 0x30#16, 0x68#16, 0x80#16, 0xBF#16, 0xFF#16].map tableAt =
    [0x0000#16, 0xC0C1#16, 0x1400#16, 0xEE01#16, 0xA001#16, 0xB041#16, 0x4040#16] := by decide

/-! ## Steps -/

/-- D-ENC-13: the illegal word consumes its three bytes. -/
theorem test_step_illegal_consumes : step (sending (held frameE) 0x01000301 [1, 2, 3]) =
    .next ((held frameE).respond (.err .illegalCommand)) := by rfl
/-- R92. -/
theorem test_step_reset : step { held frameE with hostEvents := [.reset] } = .next State.reset := by rfl
/-- R98, and a data phase one byte short (93_implementation_defined.md). -/
theorem test_step_stops : stops (step State.reset) = some .endOfRun ∧
    stops (step (sending State.reset 0x00000201 [1])) = some .dataPhaseIncomplete := by decide
/-- The fetch word of the host's question runs as the first instruction after reset. -/
theorem test_step_fetch_word : ends (step (State.reset.withFetchWord 32 0x00000301)) = some (.ok 0 [], [0, 0, 0]) := by
  decide
/-- Response words of section 7: `PAYLOAD_SLICE` with `AA BB`, and MalformedFrame. -/
theorem test_response_bytes : (Response.ok 2 [0xAA, 0xBB]).bytes = [0x02, 0x00, 0x00, 0x00, 0xAA, 0xBB] ∧
    (Response.err .malformedFrame).word = 0x00010000 ∧ (Response.err .capacityExceeded).word = 0x00050000 := by decide
/-- P1: the host's conclusion about E. -/
theorem test_host_mismatch : hostMismatch (.ok 0x5678 []) (.ok 0xEEB1 []) = true ∧
    hostMismatch (.err .malformedFrame) (.ok 0 []) = false := by decide

/-- P3: the host's result for the two-SDU stream. -/
theorem test_host_reassembles : hostReassemble [.ok 2 [0xAA, 0xBB], .ok 3 [0xCC, 0xDD, 0xEE]] =
    some [0xAA, 0xBB, 0xCC, 0xDD, 0xEE] ∧ hostTotalAgrees 5 [0xAA, 0xBB, 0xCC, 0xDD, 0xEE] = true := by decide

/-! ## For each statement with hypotheses, states that meet them all -/

theorem witness_StepKeepsTheInvariant : (sending (held frameE) 0x15 []).Inv ∧
    step (sending (held frameE) 0x15 []) = .next ((held frameE).respond (.ok 10 [])) := ⟨by decide, rfl⟩

theorem witness_StepRunsTheDecodedCommand :
    (sending (held frameE) 0x00000201 [8, 9]).hostEvents = .command 0x00000201 :: [] ∧
    (sending (held frameE) 0x00000201 [8, 9]).dataIn = [8, 9] ++ [] ∧ [8#8, 9#8].length = Word.dataLen 0x00000201 ∧
    decode 0x00000201 [8, 9] = .ok (.new [8, 9]) := by decide

theorem witness_IllegalWordsAnswerIllegalCommand : Word.rsv 0x01000301 ≠ 0#8 ∧ Word.op 0x01000301 = 0x01#8 ∧
    Word.op 0x16 ∉ [0x01#8, 0x02#8, 0x10#8, 0x11#8, 0x12#8, 0x13#8, 0x14#8, 0x15#8, 0x20#8, 0x21#8, 0x22#8, 0x30#8] ∧
    Word.arg 0x110 ≠ 0#16 ∧ (sending (held frameE) 0x01000301 [1, 2, 3]).dataIn = [1, 2, 3] ++ [] ∧
    [1#8, 2#8, 3#8].length = (Word.arg 0x01000301).toNat := by decide

theorem witness_ResetEventEmptiesTheFrame : State.hostEvents { held frameE with hostEvents := [.reset] } = .reset :: [] :=
  rfl

theorem witness_StepStopsOnlyWithoutInput : (held frameE).BufExact ∧ stops (step (held frameE)) = some .endOfRun ∧
    (sending (held frameE) 0x00000201 [1]).BufExact ∧
    stops (step (sending (held frameE) 0x00000201 [1])) = some .dataPhaseIncomplete := by decide

theorem witness_EveryCommandAdvancesTheIndexByOne :
    step (sending (held frameE) 0x15 []) = .next ((held frameE).respond (.ok 10 [])) ∧
    step { held frameE with hostEvents := [.reset] } = .next State.reset := ⟨rfl, rfl⟩

theorem witness_ErrorsLeaveTheFrameUnchanged :
    step (sending (held [7]) 0x10 []) = .next ((held [7]).respond (.err .malformedFrame)) ∧
    ((held [7]).respond (.err .malformedFrame)).responses =
      (sending (held [7]) 0x10 []).responses ++ [.err .malformedFrame] := ⟨rfl, rfl⟩

theorem witness_AccessorsLeaveTheFrameUnchanged : Instr.isConstructor .bufferSize = false ∧
    exec .bufferSize (held frameE) = .next ((held frameE).respond (.ok 10 [])) := ⟨rfl, rfl⟩

theorem witness_CapacityIsNeverWritten :
    step (sending (held16 [7]) 0x15 []) = .next ((held16 [7]).respond (.ok 1 [])) := rfl

theorem witness_OnlyTheFrameDecidesAResponse :
    (sending (held frameE) 0x15 []).buf = (held frameE).buf ∧ (sending (held frameE) 0x15 []).size = (held frameE).size ∧
    (sending (held frameE) 0x15 []).maxFrameBytes = (held frameE).maxFrameBytes ∧
    exec .length (held frameE) = .next ((held frameE).respond (.ok 4 [])) := ⟨rfl, rfl, rfl, rfl⟩

theorem witness_RepeatedReadsAnswerTheSame : Instr.isConstructor .length = false ∧
    Instr.isConstructor .payloadEnd = false ∧
    exec .payloadEnd (held frameE) = .next ((held frameE).respond (.ok 8 [])) ∧
    exec .length (held frameE) = .next ((held frameE).respond (.ok 4 [])) := ⟨rfl, rfl, rfl, rfl⟩

theorem witness_DecodeOfEncodeIsTheCommand : (Instr.new frameE).wf = true ∧ (Instr.payloadSlice 65535).wf = true := by
  decide

theorem witness_EncodeOfDecodeIsTheWord : [8#8, 9#8].length = Word.dataLen 0x00000201 ∧
    decode 0x00000201 [8, 9] = .ok (.new [8, 9]) := by decide

theorem witness_DecoderFollowsTheOpcodeRows : decode 0x15 [] = .ok .bufferSize ∧ decode 0x16 [] = .error .undefinedOpcode ∧
    opcodeRows.map (fun r => r.selects 0x16) = List.replicate 12 false := by decide

theorem witness_OpcodeRowsNeverOverlap : Instr.row (.payloadStart 0) ∈ opcodeRows ∧
    (Instr.row (.payloadStart 0)).selects 0x00000820 = true := by decide

theorem witness_IssuedCommandsAreExecuted : (Instr.new frameE).wf = true ∧ (held frameE).hostEvents = [] ∧
    (held frameE).dataIn = [] := by decide

/-- NEW at the capacity and one beyond it. -/
theorem witness_NewHoldsTheBytes : Word.rsv 0x00000201 = 0#8 ∧ Word.op 0x00000201 = 0x01#8 ∧
    (List.replicate 16 1#8).length ≤ (held16 []).maxFrameBytes.toNat ∧
    (held16 []).maxFrameBytes.toNat < (List.replicate 17 1#8).length := by decide

/-- BUILD at the capacity and one beyond it; also the premise of BuildIsNewWithTheTrailer and
BuiltFramesAreSelfConsistent, the empty input among them. -/
theorem witness_BuildAppendsTheFcs : Word.rsv 0x00000102 = 0#8 ∧ Word.op 0x00000102 = 0x02#8 ∧
    (List.replicate 14 1#8).length + 2 ≤ (held16 []).maxFrameBytes.toNat ∧
    (held16 []).maxFrameBytes.toNat < (List.replicate 15 1#8).length + 2 := by decide

theorem witness_BuildIsNewWithTheTrailer : (List.replicate 14 1#8).length + 2 ≤ (held16 []).maxFrameBytes.toNat := by decide

theorem witness_BuiltFramesAreSelfConsistent : ([] : List Byte).length + 2 ≤ State.reset.maxFrameBytes.toNat := by decide

theorem witness_ConstructorsLeaveNothingOfTheOldFrame : Instr.isConstructor (.new [7]) = true ∧
    exec (.new [7]) (held frameE) = .next (((held frameE).loadFrame [7]).respond (.ok 0 [])) ∧
    (((held frameE).loadFrame [7]).respond (.ok 0 [])).responses = (held frameE).responses ++ [.ok 0 []] := ⟨rfl, rfl, rfl⟩

/-- The header accessors at sizes 9 and 10. -/
theorem witness_HeaderFieldsAreLittleEndianPairs : (held (frameE.take 9)).size.toNat < 10 ∧ (held frameE).BufExact ∧
    10 ≤ (held frameE).size.toNat ∧ Word.rsv 0x13 = 0#8 ∧ Word.op 0x13 = 0x13#8 ∧ Word.arg 0x13 = 0#16 := by decide

/-- STORED_FCS at sizes 1 and 2. -/
theorem witness_StoredFcsIsTheLastTwoBytes : (held [7]).size.toNat < 2 ∧ (held [0x12, 0x34]).BufExact ∧
    2 ≤ (held [0x12, 0x34]).size.toNat ∧ Word.rsv 0x14 = 0#8 ∧ Word.op 0x14 = 0x14#8 ∧ Word.arg 0x14 = 0#16 := by decide

theorem witness_BufferSizeAnswersTheSize : Word.rsv 0x15 = 0#8 ∧ Word.op 0x15 = 0x15#8 ∧ Word.arg 0x15 = 0#16 := by decide

theorem witness_PayloadStartChecksTheOffset : Word.rsv 0x820 = 0#8 ∧ Word.op 0x820 = 0x20#8 ∧ Word.arg 0x820 = 8#16 := by
  decide

theorem witness_PayloadEndIsTheTrailerPosition : Word.rsv 0x21 = 0#8 ∧ Word.op 0x21 = 0x21#8 ∧ Word.arg 0x21 = 0#16 := by
  decide

/-- PAYLOAD_SLICE: a frame too short; the offset one beyond the bound, and at it. -/
theorem witness_PayloadSliceIsTheBytesBetween : Word.rsv 0x622 = 0#8 ∧ Word.op 0x622 = 0x22#8 ∧
    (held [7]).size.toNat < 2 ∧ (held frameE).BufExact ∧ 2 ≤ (held frameE).size.toNat ∧
    (held frameE).size.toNat - 2 < (9#16).toNat ∧ (8#16).toNat ≤ (held frameE).size.toNat - 2 := by decide

theorem witness_SliceAgreesWithStartAndEnd : (held frame12).BufExact ∧
    ends (exec (.payloadSlice 8) (held frame12)) = some (.ok 2 [0x11, 0x22], frame12) := by decide

theorem witness_EmptyPayloadIsValid : 2 ≤ (held frameE).size.toNat ∧ (8#16).toNat = (held frameE).size.toNat - 2 := by decide

theorem witness_AcceptedStartsDifferAsTheOffsets :
    exec (.payloadStart 8) (held frame12) =
      .next { held frame12 with responses := (held frame12).responses ++ [.ok 8 []], k := (held frame12).k + 1 } ∧
    exec (.payloadStart 6) (held frame12) =
      .next { held frame12 with responses := (held frame12).responses ++ [.ok 6 []], k := (held frame12).k + 1 } :=
  ⟨rfl, rfl⟩

theorem witness_ControlsReadsTheFirstPayloadBytesAtOffsetSix : (held frameE).BufExact ∧ 10 ≤ (held frameE).size.toNat := by
  decide

/-- COMPUTE_FCS at sizes 1 and 2. -/
theorem witness_ComputeFcsRunsOverTheWindow : (held [7]).size.toNat < 2 ∧ (held [0x12, 0x34]).BufExact ∧
    2 ≤ (held [0x12, 0x34]).size.toNat ∧ Word.rsv 0x30 = 0#8 ∧ Word.op 0x30 = 0x30#8 ∧ Word.arg 0x30 = 0#16 := by decide

theorem witness_ComputeFcsIgnoresTheTrailer : (held [1, 2, 3]).BufExact ∧ (held [1, 5, 6]).BufExact ∧
    (held [1, 2, 3]).size = (held [1, 5, 6]).size ∧
    ∀ p, p + 2 < (held [1, 2, 3]).size.toNat → (held [1, 2, 3]).readByte p = (held [1, 5, 6]).readByte p := by
  refine ⟨by decide, by decide, rfl, fun p hp => ?_⟩
  have h0 : p = 0 := by have : (held [1, 2, 3]).size.toNat = 3 := rfl
                        omega
  subst h0
  rfl

theorem witness_FcsLaws : ([1#8, 2#8] : List Byte).length = [3#8, 4#8].length := rfl

/-- A flip inside the window (position 0 of 3) and one in the trailer (position 1). -/
theorem witness_SingleBitFlipsAreDetected : (held [1, 2, 3]).BufExact ∧ (held [0x81, 2, 3]).BufExact ∧
    (held [1, 0x82, 3]).BufExact ∧ 2 ≤ (held [1, 2, 3]).size.toNat ∧ (held [0x81, 2, 3]).size = (held [1, 2, 3]).size ∧
    (held [1, 2, 3]).readByte 0 = some 1 ∧ (held [0x81, 2, 3]).readByte 0 = some (1#8 ^^^ (1#8 <<< 7)) ∧
    (held [1, 0x82, 3]).readByte 1 = some (2#8 ^^^ (1#8 <<< 7)) ∧
    (∀ q, q ≠ 0 → (held [0x81, 2, 3]).readByte q = (held [1, 2, 3]).readByte q) ∧
    (∀ q, q ≠ 1 → (held [1, 0x82, 3]).readByte q = (held [1, 2, 3]).readByte q) := by
  refine ⟨by decide, by decide, by decide, by decide, rfl, rfl, rfl, rfl, fun q hq => ?_, fun q hq => ?_⟩
  · rw [held, held, loadFrame_readByte _ (by decide), loadFrame_readByte _ (by decide)]
    cases q with
    | zero => exact absurd rfl hq
    | succ q => rfl
  · rw [held, held, loadFrame_readByte _ (by decide), loadFrame_readByte _ (by decide)]
    match q, hq with
    | 0, _ => rfl
    | q + 2, _ => rfl

theorem witness_ResponseWordHasItsFields : (held frame12).BufExact ∧
    exec (.payloadSlice 8) (held frame12) = .next ((held frame12).respond (.ok 2 [0x11, 0x22])) ∧
    ((held frame12).respond (.ok 2 [0x11, 0x22])).responses = (held frame12).responses ++ [.ok 2 [0x11, 0x22]] :=
  ⟨by decide, rfl, rfl⟩

theorem witness_FrameBytesReadsBackTheFrame : (held [0x12, 0x34]).BufExact ∧ 2 ≤ (held [0x12, 0x34]).size.toNat := by decide

/-- A frame the comparison accepts, and one it does not (P1). -/
theorem witness_VerifyAcceptsExactlySelfConsistentFrames : (held [0x01, 0xC1, 0xC0]).BufExact ∧
    2 ≤ (held [0x01, 0xC1, 0xC0]).size.toNat ∧ (held [0x01, 0xC1, 0xC0]).frame = [1#8] ++ [lo8 (fcs16 [1]), hi8 (fcs16 [1])] ∧
    (held frameE).BufExact ∧ 2 ≤ (held frameE).size.toNat := by decide

theorem witness_StreamSplitsIntoItsCommands : ∀ i ∈ [Instr.new [7], Instr.payloadSlice 8], i.wf = true := by decide

end Sys2Proof.Tests
end

/-! SUPPORT. The field accessors of 41_field_accessors.md: how an operand-less command word decodes, what a field command
and `HEADER_FIELD` answer on each side of their check, and the statements about the header accessors and BUFFER_SIZE. -/

namespace Sys2Proof.Machine

/-! ## Decoding an operand-less command -/

/-- R48 for an operand-less opcode: with `rsv` and `arg` both 0, the word is that opcode's command. -/
theorem decode_operandless {w : Word} {i : Instr} (hrsv : w.rsv = 0#8) (hop : operandless w.op = some i)
    (harg : w.arg = 0#16) (data : List Byte) : decode w data = .ok i := by
  have hne : ∀ op : Byte, operandless op = none → w.op ≠ op := by
    rintro _ hnone rfl
    simp [hnone] at hop
  simp [decode, hrsv, hne 0x01#8 (by decide), hne 0x02#8 (by decide), hne 0x20#8 (by decide), hne 0x22#8 (by decide),
    hop, harg]

/-! ## What a field command answers -/

theorem answerField_of_readLe16 {p : Nat} {s : State} {v : U16} (h : s.readLe16 p = some v) :
    answerField none p s = answer v [] s := by
  simp [answerField, h]

/-- `HEADER_FIELD` below the threshold (R54). -/
theorem headerField_small (off : Nat) {s : State} (h : s.size.toNat < 10) :
    headerField off s = raise .malformedFrame s := by
  rw [headerField, headerError_small h]
  rfl

/-- `HEADER_FIELD` from the threshold up: the little-endian pair at the position (R54). -/
theorem headerField_exact {off : Nat} {s : State} (hoff : off + 2 ≤ 10) (hb : s.BufExact) (h : 10 ≤ s.size.toNat) :
    ∃ lo hi, s.readByte off = some lo ∧ s.readByte (off + 1) = some hi ∧
      headerField off s = answer (le16 lo hi) [] s := by
  obtain ⟨lo, hi, hlo, hhi, hread⟩ := BufExact.readLe16 hb (p := off) (by omega)
  exact ⟨lo, hi, hlo, hhi, by rw [headerField, headerError_eq_none.mpr h, answerField_of_readLe16 hread]⟩

/-! ## The header accessors -/

/-- The header accessors with opcode and position (R55 to R58). -/
def headerAccessors : List (Instr × Byte × Nat) :=
  [(.length, 0x10#8, 0), (.channelId, 0x11#8, 2), (.totalL2capLength, 0x12#8, 4), (.controls, 0x13#8, 6)]

/-- Each accessor of the list is decoded from its opcode, and is `HEADER_FIELD` at its position, inside the header. -/
theorem headerAccessors_row {q : Instr × Byte × Nat} (hq : q ∈ headerAccessors) :
    operandless q.2.1 = some q.1 ∧ q.2.2 + 2 ≤ 10 ∧ ∀ s, exec q.1 s = headerField q.2.2 s := by
  simp only [headerAccessors, List.mem_cons, List.not_mem_nil, or_false] at hq
  rcases hq with rfl | rfl | rfl | rfl <;> exact ⟨rfl, by decide, fun _ => rfl⟩

/-- Settles O25: each header accessor is `HEADER_FIELD` at its position, which answers by the size of the frame. -/
theorem headerFieldsAreLittleEndianPairs : Obligations.HeaderFieldsAreLittleEndianPairs := by
  unfold Obligations.HeaderFieldsAreLittleEndianPairs
  intro q hq
  obtain ⟨hop, hoff, hexec⟩ := headerAccessors_row hq
  refine ⟨fun w hrsv hw harg => decode_operandless hrsv (hw ▸ hop) harg [],
    fun s => ⟨fun hsmall => ?_, fun hb hsize => ?_⟩⟩
  · rw [hexec, headerField_small _ hsmall]
    rfl
  · obtain ⟨lo, hi, hlo, hhi, hfield⟩ := headerField_exact hoff hb hsize
    exact ⟨lo, hi, hlo, hhi, (hexec s).trans hfield⟩

/-! ## BUFFER_SIZE -/

/-- Settles O27: the opcode decodes by R48, and BUFFER_SIZE's meaning is the one answer, with no check before it. -/
theorem bufferSizeAnswersTheSize : Obligations.BufferSizeAnswersTheSize := by
  unfold Obligations.BufferSizeAnswersTheSize
  refine ⟨fun w hrsv hw harg => decode_operandless hrsv ?_ harg [], fun s => ?_⟩
  · rw [hw]
    rfl
  · rfl

end Sys2Proof.Machine

/-! SUPPORT. The payload extent commands of 42_payload_extent.md: what each answers once its check is decided, and the
statements about PAYLOAD_END and the empty payload. -/

namespace Sys2Proof.Machine

/-! ## What the extent commands answer -/

/-- PAYLOAD_END without a trailer (R63). -/
theorem execPayloadEnd_small {s : State} (h : s.size.toNat < 2) : execPayloadEnd s = raise .malformedFrame s := by
  rw [execPayloadEnd, trailerError_small h]

/-- PAYLOAD_END with a trailer (R63). -/
theorem execPayloadEnd_trailer {s : State} (h : 2 ≤ s.size.toNat) : execPayloadEnd s = answer s.trailerPos [] s := by
  rw [execPayloadEnd, trailerError_eq_none.mpr h]

/-- PAYLOAD_START at an accepted offset (R62). -/
theorem execPayloadStart_accepted {offset : U16} {s : State} (h : offsetError offset s = none) :
    execPayloadStart offset s = answer offset [] s := by
  rw [execPayloadStart, h]

/-- PAYLOAD_SLICE at an accepted offset, where the bytes between are there (R64). -/
theorem execPayloadSlice_accepted {offset : U16} {s : State} {bytes : List Byte} (h : offsetError offset s = none)
    (hread : s.readRange offset.toNat (s.trailerPos - offset).toNat = some bytes) :
    execPayloadSlice offset s = answer (s.trailerPos - offset) bytes s := by
  simp only [execPayloadSlice, h, hread]

/-! ## The trailer's position -/

theorem trailerPos_eq_ofNat {s : State} (h : 2 ≤ s.size.toNat) : s.trailerPos = BitVec.ofNat 16 (s.size.toNat - 2) := by
  rw [← trailerPos_toNat h, BitVec.ofNat_toNat, BitVec.setWidth_eq]

/-- The trailer's position is itself an accepted offset (R62). -/
theorem offsetError_trailerPos {s : State} (h : 2 ≤ s.size.toNat) : offsetError s.trailerPos s = none :=
  offsetError_eq_none.mpr ⟨h, by rw [trailerPos_toNat h]; omega⟩

/-- PAYLOAD_SLICE from the trailer's position on reads no byte, so it needs none to be there. -/
theorem execPayloadSlice_trailerPos {s : State} (h : 2 ≤ s.size.toNat) :
    execPayloadSlice s.trailerPos s = answer 0#16 [] s := by
  have hcount : s.trailerPos - s.trailerPos = 0#16 := BitVec.sub_self _
  have hread : s.readRange s.trailerPos.toNat (s.trailerPos - s.trailerPos).toNat = some [] := by
    rw [hcount]
    rfl
  rw [execPayloadSlice_accepted (offsetError_trailerPos h) hread, hcount]

/-! ## The statements -/

/-- Settles O29: the opcode decodes by R48, and the answer goes by whether the frame has a trailer. -/
theorem payloadEndIsTheTrailerPosition : Obligations.PayloadEndIsTheTrailerPosition := by
  unfold Obligations.PayloadEndIsTheTrailerPosition
  refine ⟨fun w hrsv hw harg => decode_operandless hrsv ?_ harg [], fun s => ?_⟩
  · rw [hw]
    rfl
  · split
    case isTrue hsmall => exact execPayloadEnd_small hsmall
    case isFalse hsize =>
      have h2 : 2 ≤ s.size.toNat := by omega
      rw [← trailerPos_eq_ofNat h2]
      exact execPayloadEnd_trailer h2

/-- Settles O32: the offset `SIZE - 2` is the trailer's position, which is accepted, is PAYLOAD_END's result, and leaves
no byte between. -/
theorem emptyPayloadIsValid : Obligations.EmptyPayloadIsValid := by
  unfold Obligations.EmptyPayloadIsValid
  intro s offset hsize hoff
  obtain rfl : offset = s.trailerPos := BitVec.eq_of_toNat_eq (by rw [hoff, trailerPos_toNat hsize])
  exact ⟨execPayloadStart_accepted (offsetError_trailerPos hsize), execPayloadEnd_trailer hsize,
    execPayloadSlice_trailerPos hsize⟩

end Sys2Proof.Machine

/-! SUPPORT. What a step that goes on can have done, once, and from it the statements about every step: the invariant
(10_state.md R9, R10), the index (R16), errors (60_exceptions.md R77, R85), the capacity (00_scope.md R6), and the moves
of the block by the head of the host's list. -/

namespace Sys2Proof.Machine

variable {s t : State}

/-! ## A command or a step that goes on -/

/-- A command that goes on gave its Response with the frame as it was, or is a constructor that loaded a frame that
fits. -/
theorem exec_next {i : Instr} (h : exec i s = .next t) :
    (∃ r, t = s.respond r) ∨
    (i.isConstructor = true ∧ ∃ d : List Byte, d.length ≤ s.maxFrameBytes.toNat ∧
      t = (s.loadFrame d).respond (.ok 0#16 [])) := by
  have hends := exec_ends i s
  rw [h] at hends
  cases hends with
  | responds r => exact .inl ⟨r, rfl⟩
  | loads d hc hd => exact .inr ⟨hc, d, hd, rfl⟩

/-- A step that goes on took the reset event, or a command word that was answered with the frame as it was, or a
constructor's word whose frame it loaded. -/
theorem step_next (h : step s = .next t) :
    (∃ rest, s.hostEvents = .reset :: rest ∧ t = (s.consume s.dataIn).resetEvent) ∨
    (∃ w rest after r, s.hostEvents = .command w :: rest ∧ t = (s.consume after).respond r) ∨
    (∃ w rest after d, s.hostEvents = .command w :: rest ∧ d.length ≤ s.maxFrameBytes.toNat ∧
      t = ((s.consume after).loadFrame d).respond (.ok 0#16 [])) := by
  have hends := step_ends s
  rw [h] at hends
  cases hends with
  | reset rest he => exact .inl ⟨rest, he, rfl⟩
  | illegal w rest data after e he _ _ _ => exact .inr (.inl ⟨w, rest, after, _, he, rfl⟩)
  | command w rest data after i o he _ _ _ hx =>
    cases hx with
    | responds r => exact .inr (.inl ⟨w, rest, after, r, he, rfl⟩)
    | loads d _ hd => exact .inr (.inr ⟨w, rest, after, d, he, hd, rfl⟩)

/-! ## The invariant -/

theorem consume_inv (h : s.Inv) (after : List Byte) : (s.consume after).Inv := h

theorem resetEvent_inv (h : s.Inv) : s.resetEvent.Inv := by
  obtain ⟨_, ⟨_, hleast⟩, hone⟩ := h
  exact ⟨rfl, ⟨BitVec.le_def.mpr (Nat.zero_le _), hleast⟩, hone⟩

theorem respond_inv (h : s.Inv) (r : Response) : (s.respond r).Inv := by
  obtain ⟨hexact, hwithin, hone⟩ := h
  exact ⟨hexact, hwithin, by simpa [State.OneResponseEach] using hone⟩

theorem loadFrame_inv (h : s.Inv) {d : List Byte} (hd : d.length ≤ s.maxFrameBytes.toNat) : (s.loadFrame d).Inv := by
  obtain ⟨_, hwithin, hone⟩ := h
  exact ⟨loadFrame_exact s (Nat.lt_of_le_of_lt hd s.maxFrameBytes.isLt), loadFrame_within hwithin hd, hone⟩

/-- Settles O3: each of the three ways a step goes on keeps the invariant. -/
theorem stepKeepsTheInvariant : Obligations.StepKeepsTheInvariant := by
  unfold Obligations.StepKeepsTheInvariant
  intro s t hinv hstep
  obtain ⟨_, _, rfl⟩ | ⟨_, _, after, r, _, rfl⟩ | ⟨_, _, after, d, _, hd, rfl⟩ := step_next hstep
  · exact resetEvent_inv (consume_inv hinv s.dataIn)
  · exact respond_inv (consume_inv hinv after) r
  · exact respond_inv (loadFrame_inv (consume_inv hinv after) hd) _

/-- Settles O2: the frame is empty, the capacity is the default, and no Response has been given. -/
theorem resetMeetsTheInvariant : Obligations.ResetMeetsTheInvariant := by
  unfold Obligations.ResetMeetsTheInvariant
  exact ⟨rfl, by decide, rfl⟩

/-! ## The index, errors and the capacity -/

@[simp] theorem pendingCommands_command (w : Word) (es : List HostEvent) :
    pendingCommands (.command w :: es) = w :: pendingCommands es := rfl

@[simp] theorem pendingCommands_reset (es : List HostEvent) :
    pendingCommands (.reset :: es) = pendingCommands es := rfl

/-- Settles O8: a command word leaves the list as its Response goes out; the reset event leaves both counts. -/
theorem everyCommandAdvancesTheIndexByOne : Obligations.EveryCommandAdvancesTheIndexByOne := by
  unfold Obligations.EveryCommandAdvancesTheIndexByOne
  intro s t hstep
  obtain ⟨rest, he, rfl⟩ | ⟨w, rest, after, r, he, rfl⟩ | ⟨w, rest, after, d, he, _, rfl⟩ := step_next hstep
  · exact ⟨rfl, by simp [he], .inr ⟨rest, he, rfl, rfl⟩⟩
  · exact ⟨rfl, by simp [he]; omega, .inl ⟨w, rest, he, rfl, r, rfl⟩⟩
  · exact ⟨rfl, by simp [he]; omega, .inl ⟨w, rest, he, rfl, _, rfl⟩⟩

/-- Settles O9: of the ways a step goes on, only an answer with the frame as it was can end in an `Err`. -/
theorem errorsLeaveTheFrameUnchanged : Obligations.ErrorsLeaveTheFrameUnchanged := by
  unfold Obligations.ErrorsLeaveTheFrameUnchanged
  intro s t e hstep hresp
  refine ⟨?_, rfl, rfl⟩
  obtain ⟨_, _, rfl⟩ | ⟨_, _, after, r, _, rfl⟩ | ⟨_, _, after, d, _, _, rfl⟩ := step_next hstep
  · simp at hresp
  · obtain rfl : r = .err e := by simpa using hresp
    rfl
  · simp at hresp

/-- Settles O11: no way a step goes on writes the parameter. -/
theorem capacityIsNeverWritten : Obligations.CapacityIsNeverWritten := by
  unfold Obligations.CapacityIsNeverWritten
  intro s t hstep
  obtain ⟨_, _, rfl⟩ | ⟨_, _, _, _, _, rfl⟩ | ⟨_, _, _, _, _, _, rfl⟩ := step_next hstep <;> rfl

/-! ## The moves of the block, by the head of the host's list -/

/-- R92. -/
theorem step_of_reset {rest : List HostEvent} (h : s.hostEvents = .reset :: rest) :
    step s = .next (s.consume s.dataIn).resetEvent := by
  simp [step, fetch, h]

section command
variable {w : Word} {rest : List HostEvent} {data after : List Byte} (he : s.hostEvents = .command w :: rest)
include he

/-- R48: the word and its whole data phase, decoded, are what the step runs. -/
theorem step_of_decoded {i : Instr} (hd : s.dataIn = data ++ after) (hl : data.length = w.dataLen)
    (hi : decode w data = .ok i) : step s = exec i (s.consume after) := by
  simp [step, fetch, he, takeData_eq_some.mpr ⟨hl, hd⟩, hi]

/-- R47. -/
theorem step_of_illegal {e : Reject} (hd : s.dataIn = data ++ after) (hl : data.length = w.dataLen)
    (hi : decode w data = .error e) : step s = raise .illegalCommand (s.consume after) := by
  simp [step, fetch, he, takeData_eq_some.mpr ⟨hl, hd⟩, hi]

theorem consume_of_cons (d : List Byte) : s.consume d = { s with hostEvents := rest, dataIn := d } := by
  simp [State.consume, he]

end command

/-- Settles O4: the state in which the step runs the command is the consumed one. -/
theorem stepRunsTheDecodedCommand : Obligations.StepRunsTheDecodedCommand := by
  unfold Obligations.StepRunsTheDecodedCommand
  intro s w rest data after i he hd hl hi
  rw [step_of_decoded he hd hl hi, consume_of_cons he]

/-- Settles O6: the step takes the event off the list, and its effect is the empty frame. -/
theorem resetEventEmptiesTheFrame : Obligations.ResetEventEmptiesTheFrame := by
  unfold Obligations.ResetEventEmptiesTheFrame
  intro s rest he
  simp [step_of_reset he, State.consume, State.resetEvent, he]

/-- A data phase that stands at the front of the data-in channel is all there. -/
theorem enough_of_append {w : Word} {data after : List Byte} (hl : data.length = w.dataLen)
    (hd : s.dataIn = data ++ after) : w.dataLen ≤ s.dataIn.length := by
  rw [hd, ← hl, List.length_append]
  omega

/-- Settles O7: with an exact buffer a word whose data phase is there always goes on, so the two stops are the two ways
to have no input. -/
theorem stepStopsOnlyWithoutInput : Obligations.StepStopsOnlyWithoutInput := by
  unfold Obligations.StepStopsOnlyWithoutInput
  intro s hb
  have hends := step_ends s
  generalize step s = o at hends
  cases hends with
  | endOfRun he => simp [he, eq_comm (a := Fault.endOfRun)]
  | starved w rest he hd => simp [he, hd, eq_comm (a := Fault.dataPhaseIncomplete)]
  | reset rest he => simp [he]
  | illegal w rest data after e he hl hd _ => simp [he, enough_of_append hl hd]
  | command w rest data after i o he hl hd _ hx =>
    cases hx with
    | responds r => simp [he, enough_of_append hl hd]
    | loads d _ _ => simp [he, enough_of_append hl hd]
    | stops hn => exact absurd hb hn

/-! ## Accessors -/

/-- R61 (c): an accessor that goes on has changed nothing but the response channel and the index. -/
theorem accessor_responds {i : Instr} (hi : i.isConstructor = false) (h : exec i s = .next t) :
    ∃ r, t = s.respond r := by
  obtain hr | ⟨hc, _⟩ := exec_next h
  · exact hr
  · rw [hi] at hc
    cases hc

/-- Settles O10: an accessor only responds, and a Response changes no byte. -/
theorem accessorsLeaveTheFrameUnchanged : Obligations.AccessorsLeaveTheFrameUnchanged := by
  unfold Obligations.AccessorsLeaveTheFrameUnchanged
  intro i s t hi h
  obtain ⟨r, rfl⟩ := accessor_responds hi h
  exact ⟨⟨r, rfl⟩, fun p => rfl⟩

/-! ## What a command's outcome depends on -/

/-- Two states with the same frame and the same capacity (10_state.md R13). -/
def SameFrame (s t : State) : Prop := t.buf = s.buf ∧ t.size = s.size ∧ t.maxFrameBytes = s.maxFrameBytes

/-- A command ends in the second state as in the first: with the same Response over each state's own frame, with the
same frame loaded (constructors only), or with the same stop. -/
inductive EndAlike (i : Instr) (s t : State) :
    Host.Outcome State Fault Refusal → Host.Outcome State Fault Refusal → Prop where
  | responds (r : Response) : EndAlike i s t (.next (s.respond r)) (.next (t.respond r))
  | loads (d : List Byte) (hc : i.isConstructor = true) (r : Response) :
      EndAlike i s t (.next ((s.loadFrame d).respond r)) (.next ((t.loadFrame d).respond r))
  | stops (f : Fault) : EndAlike i s t (.fault f) (.fault f)

section SameFrame
variable (h : SameFrame s t)
include h

theorem readByte_congr (p : Nat) : t.readByte p = s.readByte p := by
  obtain ⟨hbuf, hsize, _⟩ := h
  simp [State.readByte, hbuf, hsize]

theorem readLe16_congr (p : Nat) : t.readLe16 p = s.readLe16 p := by
  simp [State.readLe16, readByte_congr h]

theorem readRange_congr (n p : Nat) : t.readRange p n = s.readRange p n := by
  induction n generalizing p with
  | zero => rfl
  | succ n ih => simp [State.readRange, readByte_congr h, ih]

theorem headerError_congr : headerError t = headerError s := by simp [headerError, h.2.1]

theorem trailerError_congr : trailerError t = trailerError s := by simp [trailerError, h.2.1]

theorem trailerPos_congr : t.trailerPos = s.trailerPos := by simp [State.trailerPos, h.2.1]

theorem offsetError_congr (offset : U16) : offsetError offset t = offsetError offset s := by
  rw [offsetError, offsetError, trailerPos_congr h, h.2.1]

theorem answerField_alike (i : Instr) (e : Option ErrorKind) (p : Nat) :
    EndAlike i s t (answerField e p s) (answerField e p t) := by
  unfold answerField
  rw [readLe16_congr h]
  split
  · exact .responds _
  · split
    · exact .responds _
    · exact .stops _

theorem headerField_alike (i : Instr) (off : Nat) : EndAlike i s t (headerField off s) (headerField off t) := by
  rw [headerField, headerField, headerError_congr h]
  exact answerField_alike h i _ off

/-- R13: no command's outcome depends on anything but the frame and the capacity. -/
theorem exec_alike (i : Instr) : EndAlike i s t (exec i s) (exec i t) := by
  cases i with
  | new d =>
    simp only [exec, execNew, h.2.2]
    split
    · exact .responds _
    · exact .loads d rfl _
  | build p =>
    simp only [exec, execBuild, h.2.2]
    split
    · exact .responds _
    · exact .loads _ rfl _
  | length => exact headerField_alike h _ 0
  | channelId => exact headerField_alike h _ 2
  | totalL2capLength => exact headerField_alike h _ 4
  | controls => exact headerField_alike h _ 6
  | storedFcs =>
    simp only [exec, execStoredFcs, trailerError_congr h, trailerPos_congr h]
    exact answerField_alike h _ _ _
  | bufferSize =>
    simp only [exec, execBufferSize, h.2.1]
    exact .responds _
  | payloadStart offset =>
    simp only [exec, execPayloadStart, offsetError_congr h]
    split <;> exact .responds _
  | payloadEnd =>
    simp only [exec, execPayloadEnd, trailerError_congr h, trailerPos_congr h]
    split <;> exact .responds _
  | payloadSlice offset =>
    simp only [exec, execPayloadSlice, offsetError_congr h, trailerPos_congr h, readRange_congr h]
    split
    · exact .responds _
    · split
      · exact .responds _
      · exact .stops _
  | computeFcs =>
    simp only [exec, execComputeFcs, trailerError_congr h, trailerPos_congr h, readRange_congr h]
    split
    · exact .responds _
    · split
      · exact .responds _
      · exact .stops _

end SameFrame

/-- Settles O12: the command ends alike, and either way the frames it leaves are the same. -/
theorem onlyTheFrameDecidesAResponse : Obligations.OnlyTheFrameDecidesAResponse := by
  unfold Obligations.OnlyTheFrameDecidesAResponse
  intro i s t s' hbuf hsize hmax hs
  have halike := exec_alike ⟨hbuf, hsize, hmax⟩ i
  rw [hs] at halike
  generalize exec i t = o at halike ⊢
  cases halike with
  | responds r => exact ⟨r, t.respond r, rfl, rfl, rfl, hbuf, hsize⟩
  | loads d _ r => exact ⟨r, (t.loadFrame d).respond r, rfl, rfl, rfl, rfl, rfl⟩

/-- An accessor that ends alike gives the same Response. -/
theorem EndAlike.next_respond {i : Instr} {o o' : Host.Outcome State Fault Refusal} {r : Response}
    (h : EndAlike i s t o o') (hi : i.isConstructor = false) (ho : o = .next (s.respond r)) :
    o' = .next (t.respond r) := by
  cases h with
  | responds r' =>
    obtain rfl : r' = r := by simpa [State.respond] using ho
    rfl
  | loads _ hc _ => simp [hi] at hc
  | stops _ => cases ho

/-- Settles O13: the accessor in between leaves the frame, so the accessor after it ends alike. -/
theorem repeatedReadsAnswerTheSame : Obligations.RepeatedReadsAnswerTheSame := by
  unfold Obligations.RepeatedReadsAnswerTheSame
  intro i j s t r hi hj hjs his
  obtain ⟨rj, rfl⟩ := accessor_responds hj hjs
  exact (exec_alike (s := s) (t := s.respond rj) ⟨rfl, rfl, rfl⟩ i).next_respond hi his

end Sys2Proof.Machine

/-! SUPPORT. The decoder once, by its cases (30_encoding.md R47, R48), and from it the statements about command words:
the two round trips, the opcode rows, the illegal words, issued commands and byte strings of commands. -/

namespace Sys2Proof

/-! ## The operand-less commands -/

/-- The operand-less commands with their opcodes (R43). -/
def operandlessCommands : List (Byte × Instr) :=
  [(0x10#8, .length), (0x11#8, .channelId), (0x12#8, .totalL2capLength), (0x13#8, .controls), (0x14#8, .storedFcs),
    (0x15#8, .bufferSize), (0x21#8, .payloadEnd), (0x30#8, .computeFcs)]

theorem mem_of_operandless {op : Byte} {i : Instr} (h : operandless op = some i) : (op, i) ∈ operandlessCommands := by
  unfold operandless at h
  split_ifs at h <;> cases h <;> simp [operandlessCommands, *]

theorem operandless_eq_none {op : Byte} :
    operandless op = none ↔ op ∉ [0x10#8, 0x11#8, 0x12#8, 0x13#8, 0x14#8, 0x15#8, 0x21#8, 0x30#8] := by
  unfold operandless
  split_ifs <;> simp_all

/-- What the encoder and the opcode table say of an operand-less command. -/
theorem operandless_encoding {op : Byte} {i : Instr} (h : operandless op = some i) :
    encodeWord i = packWord op 0#16 ∧ dataPhase i = [] ∧ i.wf = true ∧
      i.row.mask = 0xFFFFFFFF#32 ∧ i.row.value = packWord op 0#16 ∧ op ≠ 0x01#8 ∧ op ≠ 0x02#8 := by
  have all : ∀ q ∈ operandlessCommands, encodeWord q.2 = packWord q.1 0#16 ∧ dataPhase q.2 = [] ∧ q.2.wf = true ∧
      q.2.row.mask = 0xFFFFFFFF#32 ∧ q.2.row.value = packWord q.1 0#16 ∧ q.1 ≠ 0x01#8 ∧ q.1 ≠ 0x02#8 := by decide
  exact all _ (mem_of_operandless h)

/-! ## The decoder by its cases -/

/-- What `decode` can answer, by the fields of the word. -/
inductive Decodes (w : Word) (data : List Byte) : Except Reject Instr → Prop where
  | reserved (hrsv : w.rsv ≠ 0#8) : Decodes w data (.error .reservedBits)
  | new (hrsv : w.rsv = 0#8) (hop : w.op = 0x01#8) : Decodes w data (.ok (.new data))
  | build (hrsv : w.rsv = 0#8) (hop : w.op = 0x02#8) : Decodes w data (.ok (.build data))
  | payloadStart (hrsv : w.rsv = 0#8) (hop : w.op = 0x20#8) : Decodes w data (.ok (.payloadStart w.arg))
  | payloadSlice (hrsv : w.rsv = 0#8) (hop : w.op = 0x22#8) : Decodes w data (.ok (.payloadSlice w.arg))
  | operandless (i : Instr) (hrsv : w.rsv = 0#8) (hop : operandless w.op = some i) (harg : w.arg = 0#16) :
      Decodes w data (.ok i)
  | stray (i : Instr) (hop : operandless w.op = some i) (harg : w.arg ≠ 0#16) : Decodes w data (.error .strayOperand)
  | undefined (hop : w.op ∉ [0x01#8, 0x02#8, 0x20#8, 0x22#8]) (hnone : operandless w.op = none) :
      Decodes w data (.error .undefinedOpcode)

theorem decode_decodes (w : Word) (data : List Byte) : Decodes w data (decode w data) := by
  unfold decode
  split_ifs with hrsv h1 h2 h20 h22 harg
  · exact .reserved hrsv
  · exact .new (not_not.mp hrsv) h1
  · exact .build (not_not.mp hrsv) h2
  · exact .payloadStart (not_not.mp hrsv) h20
  · exact .payloadSlice (not_not.mp hrsv) h22
  · split
    · next i hop => exact .operandless i (not_not.mp hrsv) hop harg
    · next hop => exact .undefined (by simp [h1, h2, h20, h22]) hop
  · split
    · next i hop => exact .stray i hop harg
    · next hop => exact .undefined (by simp [h1, h2, h20, h22]) hop

theorem decode_new {w : Word} (hrsv : w.rsv = 0#8) (hop : w.op = 0x01#8) (data : List Byte) :
    decode w data = .ok (.new data) := by
  simp [decode, hrsv, hop]

theorem decode_build {w : Word} (hrsv : w.rsv = 0#8) (hop : w.op = 0x02#8) (data : List Byte) :
    decode w data = .ok (.build data) := by
  simp [decode, hrsv, hop]

theorem decode_payloadStart {w : Word} (hrsv : w.rsv = 0#8) (hop : w.op = 0x20#8) (data : List Byte) :
    decode w data = .ok (.payloadStart w.arg) := by
  simp [decode, hrsv, hop]

theorem decode_payloadSlice {w : Word} (hrsv : w.rsv = 0#8) (hop : w.op = 0x22#8) (data : List Byte) :
    decode w data = .ok (.payloadSlice w.arg) := by
  simp [decode, hrsv, hop]

/-! ## The data phase a word announces (R45) -/

theorem dataLen_of_data {w : Word} (h : w.op = 0x01#8 ∨ w.op = 0x02#8) : w.dataLen = w.arg.toNat := by
  rcases h with h | h <;> simp [Word.dataLen, Word.hasData, h]

theorem dataLen_of_no_data {w : Word} (h1 : w.op ≠ 0x01#8) (h2 : w.op ≠ 0x02#8) : w.dataLen = 0 := by
  simp [Word.dataLen, Word.hasData, h1, h2]

theorem dataLen_eq_ite (w : Word) : w.dataLen = if w.op = 0x01#8 ∨ w.op = 0x02#8 then w.arg.toNat else 0 := by
  simp [Word.dataLen, Word.hasData]

/-- The word of a well-formed command announces exactly the command's data phase. -/
theorem dataLen_encodeWord {i : Instr} (h : i.wf = true) : (encodeWord i).dataLen = (dataPhase i).length := by
  have hi : Laws.WordSelectsRow.Statement i := by
    cases i with
    | new d => exact Laws.WordSelectsRow.new d
    | build p => exact Laws.WordSelectsRow.build p
    | length => exact Laws.WordSelectsRow.length
    | channelId => exact Laws.WordSelectsRow.channelId
    | totalL2capLength => exact Laws.WordSelectsRow.totalL2capLength
    | controls => exact Laws.WordSelectsRow.controls
    | storedFcs => exact Laws.WordSelectsRow.storedFcs
    | bufferSize => exact Laws.WordSelectsRow.bufferSize
    | payloadStart offset => exact Laws.WordSelectsRow.payloadStart offset
    | payloadEnd => exact Laws.WordSelectsRow.payloadEnd
    | payloadSlice offset => exact Laws.WordSelectsRow.payloadSlice offset
    | computeFcs => exact Laws.WordSelectsRow.computeFcs
  exact (hi h).2

/-- A well-formed command's data phase comes off the front of the data-in bytes. -/
theorem takeData_encode {i : Instr} (h : i.wf = true) (rest : List Byte) :
    takeData (encodeWord i) (dataPhase i ++ rest) = some (dataPhase i, rest) :=
  takeData_eq_some.mpr ⟨(dataLen_encodeWord h).symm, rfl⟩

/-! ## The round trips -/

/-- A command's word and data phase decode to the command; the data phase need not fit `arg` for this. -/
theorem decode_encode (i : Instr) : decode (encodeWord i) (dataPhase i) = .ok i := by
  cases i with
  | new d => exact decode_new (packWord_rsv _ _) (packWord_op _ _) d
  | build p => exact decode_build (packWord_rsv _ _) (packWord_op _ _) p
  | payloadStart offset =>
    rw [encodeWord, decode_payloadStart (packWord_rsv _ _) (packWord_op _ _), packWord_arg]
  | payloadSlice offset =>
    rw [encodeWord, decode_payloadSlice (packWord_rsv _ _) (packWord_op _ _), packWord_arg]
  | length | channelId | totalL2capLength | controls | storedFcs | bufferSize | payloadEnd | computeFcs => rfl

/-- Settles O14: the four bytes give the word, which announces its own data phase and decodes with it. -/
theorem decodeOfEncodeIsTheCommand : Obligations.DecodeOfEncodeIsTheCommand := by
  unfold Obligations.DecodeOfEncodeIsTheCommand
  intro i rest hwf
  rw [encode, List.append_assoc, decodeBytes]
  simp only [takeWord_wordBytes, takeData_encode hwf, decode_encode]

theorem packWord_eq {w : Word} {op : Byte} {arg : U16} (hrsv : w.rsv = 0#8) (hop : w.op = op) (harg : w.arg = arg) :
    packWord op arg = w := by
  rw [← hop, ← harg, packWord_fields hrsv]

/-- The data bytes of a word with a data phase are as many as its `arg` says. -/
theorem arg_eq_data_length {w : Word} {data : List Byte} (hop : w.op = 0x01#8 ∨ w.op = 0x02#8)
    (hl : data.length = w.dataLen) : w.arg = BitVec.ofNat 16 data.length ∧ data.length < 65536 := by
  rw [hl, dataLen_of_data hop]
  exact ⟨by rw [BitVec.ofNat_toNat, BitVec.setWidth_eq], w.arg.isLt⟩

/-- Settles O15: in each case of the decoder the word is packed from its fields, and the data phase is the one its
opcode announces. -/
theorem encodeOfDecodeIsTheWord : Obligations.EncodeOfDecodeIsTheWord := by
  unfold Obligations.EncodeOfDecodeIsTheWord
  intro w data i hl hdecode
  have hcases := decode_decodes w data
  rw [hdecode] at hcases
  have no_data (h1 : w.op ≠ 0x01#8) (h2 : w.op ≠ 0x02#8) : [] = data :=
    (List.eq_nil_of_length_eq_zero (hl.trans (dataLen_of_no_data h1 h2))).symm
  cases hcases with
  | new hrsv hop =>
    obtain ⟨harg, hlt⟩ := arg_eq_data_length (.inl hop) hl
    exact ⟨packWord_eq hrsv hop harg, rfl, decide_eq_true hlt⟩
  | build hrsv hop =>
    obtain ⟨harg, hlt⟩ := arg_eq_data_length (.inr hop) hl
    exact ⟨packWord_eq hrsv hop harg, rfl, decide_eq_true hlt⟩
  | payloadStart hrsv hop =>
    exact ⟨packWord_eq hrsv hop rfl, no_data (by simp [hop]) (by simp [hop]), rfl⟩
  | payloadSlice hrsv hop =>
    exact ⟨packWord_eq hrsv hop rfl, no_data (by simp [hop]) (by simp [hop]), rfl⟩
  | operandless i hrsv hop harg =>
    obtain ⟨hword, hphase, hwf, -, -, h1, h2⟩ := operandless_encoding hop
    exact ⟨hword.trans (packWord_eq hrsv rfl harg), hphase.trans (no_data h1 h2), hwf⟩

/-! ## The opcode rows (R43) -/

theorem row_mem_opcodeRows (i : Instr) : i.row ∈ opcodeRows := by
  cases i <;> simp [opcodeRows, Instr.row]

/-- A word selects the row of the command it decodes to. -/
theorem row_selects_of_decode {w : Word} {data : List Byte} {i : Instr} (h : decode w data = .ok i) :
    i.row.selects w = true := by
  have hcases := decode_decodes w data
  rw [h] at hcases
  cases hcases with
  | new hrsv hop => exact selects_open_arg (op := 0x01#8).mpr ⟨hrsv, hop⟩
  | build hrsv hop => exact selects_open_arg (op := 0x02#8).mpr ⟨hrsv, hop⟩
  | payloadStart hrsv hop => exact selects_open_arg (op := 0x20#8).mpr ⟨hrsv, hop⟩
  | payloadSlice hrsv hop => exact selects_open_arg (op := 0x22#8).mpr ⟨hrsv, hop⟩
  | operandless i hrsv hop harg =>
    obtain ⟨-, -, -, hmask, hvalue, -, -⟩ := operandless_encoding hop
    have hw : w = i.row.value := (hvalue.trans (packWord_eq hrsv rfl harg)).symm
    have hrow : i.row = ⟨i.row.mnemonic, 0xFFFFFFFF#32, i.row.value⟩ := by rw [← hmask]
    rw [hrow]
    exact selects_exact.mpr hw

/-- A word that selects a row of the table decodes to a command of that row. -/
theorem decode_of_selects {w : Word} {r : OpcodeRow} (hr : r ∈ opcodeRows) (h : r.selects w = true)
    (data : List Byte) : ∃ i, decode w data = .ok i ∧ i.row = r := by
  simp only [opcodeRows, List.mem_cons, List.not_mem_nil, or_false] at hr
  rcases hr with rfl | rfl | rfl | rfl | rfl | rfl | rfl | rfl | rfl | rfl | rfl | rfl
  · obtain ⟨hrsv, hop⟩ := selects_open_arg (op := 0x01#8).mp h
    exact ⟨_, decode_new hrsv hop data, rfl⟩
  · obtain ⟨hrsv, hop⟩ := selects_open_arg (op := 0x02#8).mp h
    exact ⟨_, decode_build hrsv hop data, rfl⟩
  · obtain rfl := selects_exact.mp h; exact ⟨.length, rfl, rfl⟩
  · obtain rfl := selects_exact.mp h; exact ⟨.channelId, rfl, rfl⟩
  · obtain rfl := selects_exact.mp h; exact ⟨.totalL2capLength, rfl, rfl⟩
  · obtain rfl := selects_exact.mp h; exact ⟨.controls, rfl, rfl⟩
  · obtain rfl := selects_exact.mp h; exact ⟨.storedFcs, rfl, rfl⟩
  · obtain rfl := selects_exact.mp h; exact ⟨.bufferSize, rfl, rfl⟩
  · obtain ⟨hrsv, hop⟩ := selects_open_arg (op := 0x20#8).mp h
    exact ⟨_, decode_payloadStart hrsv hop data, rfl⟩
  · obtain rfl := selects_exact.mp h; exact ⟨.payloadEnd, rfl, rfl⟩
  · obtain ⟨hrsv, hop⟩ := selects_open_arg (op := 0x22#8).mp h
    exact ⟨_, decode_payloadSlice hrsv hop data, rfl⟩
  · obtain rfl := selects_exact.mp h; exact ⟨.computeFcs, rfl, rfl⟩

/-- Settles O16: decoding to a command and selecting its row are the same thing, so an illegal word selects none. -/
theorem decoderFollowsTheOpcodeRows : Obligations.DecoderFollowsTheOpcodeRows := by
  unfold Obligations.DecoderFollowsTheOpcodeRows
  intro w data
  refine ⟨fun i h => ⟨row_mem_opcodeRows i, row_selects_of_decode h⟩, ?_, ?_⟩
  · rintro ⟨e, he⟩ r hr
    by_contra hsel
    obtain ⟨i, hi, -⟩ := decode_of_selects hr (by simpa using hsel) data
    simp [he] at hi
  · intro hnone
    cases h : decode w data with
    | error e => exact ⟨e, rfl⟩
    | ok i =>
      have hsel := row_selects_of_decode h
      rw [hnone i.row (row_mem_opcodeRows i)] at hsel
      cases hsel

/-- Settles O17: a word decodes to one command, and each row it selects is that command's. -/
theorem opcodeRowsNeverOverlap : Obligations.OpcodeRowsNeverOverlap := by
  unfold Obligations.OpcodeRowsNeverOverlap
  intro w r q hr hq hrsel hqsel
  obtain ⟨i, hi, rfl⟩ := decode_of_selects hr hrsel []
  obtain ⟨j, hj, rfl⟩ := decode_of_selects hq hqsel []
  rw [hi] at hj
  cases hj
  rfl

/-- Settles O18: the decoder run on the ten words. -/
theorem decodesTheSpecsWords : Obligations.DecodesTheSpecsWords := by
  unfold Obligations.DecodesTheSpecsWords
  decide

/-! ## Illegal words (R47) -/

/-- R47's three causes: an undefined opcode, `rsv` not 0, or `arg` not 0 beside an operand-less opcode. -/
def Word.Illegal (w : Word) : Prop :=
  w.op ∉ [0x01#8, 0x02#8, 0x10#8, 0x11#8, 0x12#8, 0x13#8, 0x14#8, 0x15#8, 0x20#8, 0x21#8, 0x22#8, 0x30#8] ∨
  w.rsv ≠ 0#8 ∨
  (w.op ∈ [0x10#8, 0x11#8, 0x12#8, 0x13#8, 0x14#8, 0x15#8, 0x21#8, 0x30#8] ∧ w.arg ≠ 0#16)

/-- The opcodes of the table are the four with an operand and the operand-less ones. -/
theorem op_defined_iff (op : Byte) :
    op ∈ [0x01#8, 0x02#8, 0x10#8, 0x11#8, 0x12#8, 0x13#8, 0x14#8, 0x15#8, 0x20#8, 0x21#8, 0x22#8, 0x30#8] ↔
      op ∈ [0x01#8, 0x02#8, 0x20#8, 0x22#8] ∨ operandless op ≠ none := by
  simp only [ne_eq, operandless_eq_none, not_not, List.mem_cons, List.not_mem_nil, or_false]
  tauto

/-- The decoder rejects exactly the illegal words. -/
theorem decode_isOk_iff (w : Word) (data : List Byte) : (∃ i, decode w data = .ok i) ↔ ¬ w.Illegal := by
  have hnone := operandless_eq_none (op := w.op)
  have hcases := decode_decodes w data
  unfold Word.Illegal
  rw [op_defined_iff]
  generalize decode w data = o at hcases
  cases hcases with
  | reserved hrsv => simp [hrsv]
  | new hrsv hop | build hrsv hop | payloadStart hrsv hop | payloadSlice hrsv hop => simp [hrsv, hop]
  | operandless i hrsv hop harg => simp [hrsv, hop, harg]
  | stray i hop harg =>
    rw [hop] at hnone
    simp only [reduceCtorEq, false_iff, not_not] at hnone
    simp [hnone, harg]
  | undefined hop hn => simp [hop, hn]

/-- Settles O5: the decoder rejects exactly those words, and the step answers a rejected word with its data phase
consumed. -/
theorem illegalWordsAnswerIllegalCommand : Obligations.IllegalWordsAnswerIllegalCommand := by
  unfold Obligations.IllegalWordsAnswerIllegalCommand
  intro w illegal
  refine ⟨fun data => decode_isOk_iff w data, fun hill s rest data after he hd hl => ?_⟩
  cases hdec : decode w data with
  | ok i => exact absurd hill ((decode_isOk_iff w data).mp ⟨i, hdec⟩)
  | error e =>
    rw [Machine.step_of_illegal he hd (hl.trans (dataLen_eq_ite w).symm) hdec, Machine.consume_of_cons he]
    rfl

end Sys2Proof

namespace Sys2Proof.Machine

/-! ## Issued commands and byte strings -/

/-- Settles O19: the word issued announces the data bytes issued with it, and the step consumes both. -/
theorem issuedCommandsAreExecuted : Obligations.IssuedCommandsAreExecuted := by
  unfold Obligations.IssuedCommandsAreExecuted
  intro i s hwf hevents hdata
  have he : (s.issue i).hostEvents = .command (encodeWord i) :: [] := by simp [hevents]
  have hd : (s.issue i).dataIn = dataPhase i ++ [] := by simp [hdata]
  have hs : (s.issue i).consume [] = s := by
    rw [consume_of_cons he, ← hevents, ← hdata]
    rfl
  rw [step_of_decoded he hd (dataLen_encodeWord hwf).symm (decode_encode i), hs]

/-- The first command of a stream gives the first word and data phase. -/
theorem splitStream_encode {i : Instr} (hwf : i.wf = true) {n : Nat} {rest : List Byte} {ws : List Word}
    {ds : List Byte} (h : splitStream n rest = some (ws, ds)) :
    splitStream (n + 1) (encode i ++ rest) = some (encodeWord i :: ws, dataPhase i ++ ds) := by
  have htake : takeWord (encode i ++ rest) = some (encodeWord i, dataPhase i ++ rest) := by
    rw [encode, List.append_assoc, takeWord_wordBytes]
  obtain ⟨b, bs, hcons⟩ : ∃ b bs, encode i ++ rest = b :: bs := ⟨_, _, rfl⟩
  rw [hcons] at htake ⊢
  simp only [splitStream, htake, takeData_encode hwf, h]

/-- Settles O45, by induction on the commands. -/
theorem streamSplitsIntoItsCommands : Obligations.StreamSplitsIntoItsCommands := by
  unfold Obligations.StreamSplitsIntoItsCommands
  intro is hwf
  induction is with
  | nil => rfl
  | cons i is ih =>
    simp only [List.flatMap_cons, List.length_cons, List.map_cons]
    exact splitStream_encode (hwf i List.mem_cons_self) (ih fun j hj => hwf j (List.mem_cons_of_mem i hj))

end Sys2Proof.Machine

/-! SUPPORT. What the trailer-relative and extent commands answer on a frame cut as window and trailer, and from it the
statements about STORED_FCS, the payload extent, COMPUTE_FCS's window, and the host's reading of their Responses. -/

namespace Sys2Proof.Machine

variable {s t : State}

/-! ## The trailer-relative commands below two bytes -/

theorem execStoredFcs_small (h : s.size.toNat < 2) : exec .storedFcs s = raise .malformedFrame s := by
  rw [exec, execStoredFcs, trailerError_small h]
  rfl

theorem execComputeFcs_small (h : s.size.toNat < 2) : exec .computeFcs s = raise .malformedFrame s := by
  rw [exec, execComputeFcs, trailerError_small h]

/-! ## A frame as window and trailer (30_encoding.md R37; 43_fcs.md R68) -/

/-- The frame is exact and is a window followed by a trailer of two bytes. -/
structure HasTrailer (s : State) (window : List Byte) (lo hi : Byte) : Prop where
  buf_exact : s.BufExact
  frame_eq : s.frame = window ++ [lo, hi]

/-- Every exact frame of at least two bytes has a trailer. -/
theorem exists_trailer (hb : s.BufExact) (h : 2 ≤ s.size.toNat) : ∃ window lo hi, HasTrailer s window lo hi := by
  have hlen := BufExact.frame_length hb
  have hdrop : (s.frame.drop (s.frame.length - 2)).length = 2 := by simp; omega
  obtain ⟨lo, hi, hpair⟩ := List.length_eq_two.mp hdrop
  exact ⟨_, lo, hi, hb, by rw [← hpair, List.take_append_drop]⟩

namespace HasTrailer

variable {window : List Byte} {lo hi : Byte} (h : HasTrailer s window lo hi)
include h

theorem size_eq : s.size.toNat = window.length + 2 := by
  rw [← BufExact.frame_length h.buf_exact, h.frame_eq, List.length_append]
  rfl

theorem two_le_size : 2 ≤ s.size.toNat := by
  rw [h.size_eq]
  omega

theorem trailerPos_eq : s.trailerPos.toNat = window.length := by
  rw [trailerPos_toNat h.two_le_size, h.size_eq]
  omega

theorem readByte_eq (p : Nat) : s.readByte p = (window ++ [lo, hi])[p]? := by
  rw [BufExact.readByte h.buf_exact, h.frame_eq]

theorem readByte_window {p : Nat} (hp : p < window.length) : s.readByte p = window[p]? := by
  rw [h.readByte_eq, List.getElem?_append_left hp]

theorem readByte_lo : s.readByte window.length = some lo := by
  simp [h.readByte_eq]

theorem readByte_hi : s.readByte (window.length + 1) = some hi := by
  simp [h.readByte_eq]

/-- Reading the window from an offset on. -/
theorem readRange_window {offset : Nat} (ho : offset ≤ window.length) :
    s.readRange offset (window.length - offset) = some (window.drop offset) := by
  rw [BufExact.readRange h.buf_exact _ _ (by rw [h.size_eq]; omega), h.frame_eq, List.drop_append_of_le_length ho,
    List.take_left' (by simp)]

/-- R59. -/
theorem storedFcs : exec .storedFcs s = answer (le16 lo hi) [] s := by
  have hread : s.readLe16 s.trailerPos.toNat = some (le16 lo hi) := by
    simp [State.readLe16, h.trailerPos_eq, h.readByte_lo, h.readByte_hi]
  rw [exec, execStoredFcs, trailerError_eq_none.mpr h.two_le_size, answerField_of_readLe16 hread]

/-- R70. -/
theorem computeFcs : exec .computeFcs s = answer (fcs16 window) [] s := by
  have hread : s.readRange 0 s.trailerPos.toNat = some window := by
    rw [h.trailerPos_eq]
    exact h.readRange_window (Nat.zero_le _)
  simp only [exec, execComputeFcs, trailerError_eq_none.mpr h.two_le_size, hread]

/-- R64, at an accepted offset. -/
theorem payloadSlice {offset : U16} (ho : offset.toNat ≤ window.length) :
    exec (.payloadSlice offset) s = answer (s.trailerPos - offset) (window.drop offset.toNat) s := by
  have hsize := h.size_eq
  have hle : offset.toNat + 2 ≤ s.size.toNat := by omega
  have hcount : (s.trailerPos - offset).toNat = window.length - offset.toNat := by
    rw [sliceCount_toNat h.two_le_size hle]
    omega
  refine execPayloadSlice_accepted (offsetError_eq_none.mpr ⟨h.two_le_size, hle⟩) ?_
  rw [hcount, h.readRange_window ho]

end HasTrailer

/-! ## STORED_FCS and COMPUTE_FCS -/

/-- Settles O26: the last two bytes are the trailer. -/
theorem storedFcsIsTheLastTwoBytes : Obligations.StoredFcsIsTheLastTwoBytes := by
  unfold Obligations.StoredFcsIsTheLastTwoBytes
  refine ⟨fun w hrsv hw harg => decode_operandless hrsv (by rw [hw]; rfl) harg [],
    fun s => ⟨fun hsmall => execStoredFcs_small hsmall, fun hb hsize => ?_⟩⟩
  obtain ⟨window, lo, hi, htr⟩ := exists_trailer hb hsize
  rw [htr.size_eq]
  exact ⟨lo, hi, htr.readByte_lo, htr.readByte_hi, htr.storedFcs⟩

/-- Settles O35: the window is what stands before the trailer. -/
theorem computeFcsRunsOverTheWindow : Obligations.ComputeFcsRunsOverTheWindow := by
  unfold Obligations.ComputeFcsRunsOverTheWindow
  refine ⟨fun w hrsv hw harg => decode_operandless hrsv (by rw [hw]; rfl) harg [],
    fun s => ⟨fun hsmall => execComputeFcs_small hsmall, fun hb hsize => ?_⟩⟩
  obtain ⟨window, lo, hi, htr⟩ := exists_trailer hb hsize
  exact ⟨window, by rw [htr.size_eq]; rfl, fun j hj => (htr.readByte_window hj).symm, htr.computeFcs⟩

/-- Frames of one size that agree before the trailer have the same window. -/
theorem HasTrailer.window_eq {window window' : List Byte} {lo hi lo' hi' : Byte} (hs : HasTrailer s window lo hi)
    (ht : HasTrailer t window' lo' hi') (hsize : s.size = t.size)
    (hagree : ∀ p, p + 2 < s.size.toNat → s.readByte p = t.readByte p) : window = window' := by
  have hslen := hs.size_eq
  have htlen := ht.size_eq
  rw [← hsize] at htlen
  refine List.ext_getElem? fun p => ?_
  by_cases hp : p < window.length
  · rw [← hs.readByte_window hp, ← ht.readByte_window (by omega), hagree p (by omega)]
  · rw [List.getElem?_eq_none (by omega), List.getElem?_eq_none (by omega)]

/-- Settles O36: the two frames have one window, or neither has a trailer. -/
theorem computeFcsIgnoresTheTrailer : Obligations.ComputeFcsIgnoresTheTrailer := by
  unfold Obligations.ComputeFcsIgnoresTheTrailer
  intro s t hs ht hsize hagree
  by_cases h : 2 ≤ s.size.toNat
  · obtain ⟨window, lo, hi, hstr⟩ := exists_trailer hs h
    obtain ⟨window', lo', hi', httr⟩ := exists_trailer ht (hsize ▸ h)
    obtain rfl := hstr.window_eq httr hsize hagree
    exact ⟨_, hstr.computeFcs, httr.computeFcs⟩
  · have hsmall : s.size.toNat < 2 := by omega
    exact ⟨_, execComputeFcs_small hsmall, execComputeFcs_small (hsize ▸ hsmall)⟩

/-! ## The payload extent -/

theorem execPayloadStart_raises {offset : U16} {e : ErrorKind} (h : offsetError offset s = some e) :
    exec (.payloadStart offset) s = raise e s := by
  rw [exec, execPayloadStart, h]

theorem execPayloadSlice_raises {offset : U16} {e : ErrorKind} (h : offsetError offset s = some e) :
    exec (.payloadSlice offset) s = raise e s := by
  rw [exec, execPayloadSlice, h]

/-- Settles O28: the offset's check decides the answer. -/
theorem payloadStartChecksTheOffset : Obligations.PayloadStartChecksTheOffset := by
  unfold Obligations.PayloadStartChecksTheOffset
  refine ⟨fun w hrsv hop => decode_payloadStart hrsv hop [], fun offset s => ?_⟩
  split_ifs with hsmall hbeyond
  · exact execPayloadStart_raises (offsetError_small offset hsmall)
  · exact execPayloadStart_raises (offsetError_beyond (by omega) hbeyond)
  · exact execPayloadStart_accepted (offsetError_eq_none.mpr (by omega))

/-- Settles O30: an accepted offset is inside the window, and the slice is the rest of the window. -/
theorem payloadSliceIsTheBytesBetween : Obligations.PayloadSliceIsTheBytesBetween := by
  unfold Obligations.PayloadSliceIsTheBytesBetween
  refine ⟨fun w hrsv hop => decode_payloadSlice hrsv hop [], fun offset s =>
    ⟨fun hsmall => execPayloadSlice_raises (offsetError_small offset hsmall),
      fun hsize hbeyond => execPayloadSlice_raises (offsetError_beyond hsize hbeyond), fun hb hsize ho => ?_⟩⟩
  obtain ⟨window, lo, hi, htr⟩ := exists_trailer hb hsize
  have hlen := htr.size_eq
  have hcount : s.trailerPos - offset = BitVec.ofNat 16 (window.drop offset.toNat).length := by
    rw [List.length_drop, ← htr.trailerPos_eq]
    refine BitVec.eq_of_toNat_eq ?_
    rw [sliceCount_toNat hsize (by omega), htr.trailerPos_eq, BitVec.toNat_ofNat]
    omega
  refine ⟨window.drop offset.toNat, by rw [List.length_drop]; omega, fun j hj => ?_, ?_⟩
  · rw [List.length_drop] at hj
    rw [List.getElem?_drop, htr.readByte_window (by omega)]
  · rw [← hcount]
    exact htr.payloadSlice (by omega)

/-- Settles O31: the three commands share the offset's check, and PAYLOAD_END fails only where it does. -/
theorem sliceAgreesWithStartAndEnd : Obligations.SliceAgreesWithStartAndEnd := by
  unfold Obligations.SliceAgreesWithStartAndEnd
  intro offset s hb
  by_cases hsize : 2 ≤ s.size.toNat
  case neg =>
    have herr := offsetError_small offset (s := s) (by omega)
    exact ⟨_, _, _, execPayloadStart_raises herr, execPayloadEnd_small (by omega), execPayloadSlice_raises herr,
      by decide⟩
  obtain ⟨window, lo, hi, htr⟩ := exists_trailer hb hsize
  have hlen := htr.size_eq
  by_cases ho : offset.toNat ≤ window.length
  case neg =>
    have herr := offsetError_beyond (offset := offset) hsize (by omega)
    exact ⟨_, _, _, execPayloadStart_raises herr, execPayloadEnd_trailer hsize, execPayloadSlice_raises herr,
      by simp [Response.status, ErrorKind.code]⟩
  have hle : offset.toNat + 2 ≤ s.size.toNat := by omega
  have hstart := execPayloadStart_accepted (offsetError_eq_none.mpr ⟨hsize, hle⟩)
  refine ⟨_, _, _, hstart, execPayloadEnd_trailer hsize, htr.payloadSlice ho, ?_⟩
  simp [Response.status, Response.resultField, Response.dout, sliceCount_toNat hsize hle, hlen]

/-- PAYLOAD_START answers `OK` only at an accepted offset, with the offset. -/
theorem accepted_of_payloadStart_ok {offset v : U16} {d : List Byte}
    (h : exec (.payloadStart offset) s = .next (s.respond (.ok v d))) : v = offset ∧ offsetError offset s = none := by
  cases herr : offsetError offset s with
  | some e => simp [execPayloadStart_raises herr, State.respond] at h
  | none =>
    rw [exec, execPayloadStart_accepted herr] at h
    obtain ⟨rfl, -⟩ : v = offset ∧ d = [] := by simpa [State.respond] using h
    exact ⟨rfl, rfl⟩

/-- Settles O33: each result is its offset, and each offset is accepted, so it is at most `SIZE - 2`. -/
theorem acceptedStartsDifferAsTheOffsets : Obligations.AcceptedStartsDifferAsTheOffsets := by
  unfold Obligations.AcceptedStartsDifferAsTheOffsets
  intro s a b x y hx hy
  obtain ⟨rfl, ha⟩ := accepted_of_payloadStart_ok hx
  obtain ⟨rfl, hb⟩ := accepted_of_payloadStart_ok hy
  obtain ⟨hsize, hxle⟩ := offsetError_eq_none.mp ha
  obtain ⟨-, hyle⟩ := offsetError_eq_none.mp hb
  refine ⟨rfl, s.trailerPos, execPayloadEnd_trailer hsize, ?_, ?_⟩ <;> rw [trailerPos_toNat hsize] <;> omega

/-- Settles O34: positions 6 and 7 are the control field and the first two bytes of the window from 6 on. -/
theorem controlsReadsTheFirstPayloadBytesAtOffsetSix : Obligations.ControlsReadsTheFirstPayloadBytesAtOffsetSix := by
  unfold Obligations.ControlsReadsTheFirstPayloadBytesAtOffsetSix
  intro s hb hsize
  obtain ⟨b6, b7, h6, h7, hcontrols⟩ := headerField_exact (off := 6) (by omega) hb hsize
  obtain ⟨window, lo, hi, htr⟩ := exists_trailer hb (by omega)
  have hlen := htr.size_eq
  refine ⟨_, _, _, hcontrols, htr.payloadSlice (offset := headerOffset false) (by simp [headerOffset]; omega), ?_⟩
  rw [htr.readByte_window (by omega)] at h6 h7
  have hpair : (window.drop 6).take 2 = [b6, b7] := by
    rw [List.drop_eq_getElem_cons (by omega), List.drop_eq_getElem_cons (by omega)]
    rw [List.getElem?_eq_getElem (by omega), Option.some.injEq] at h6 h7
    simp [h6, h7]
  exact hpair.trans (congrArg₂ (fun l h : Byte => [l, h]) (lo8_le16 b6 b7).symm (hi8_le16 b6 b7).symm)

/-! ## The host's reading of the Responses -/

/-- Settles O43: the slice from 0 is the window, and the stored FCS splits into the trailer. -/
theorem frameBytesReadsBackTheFrame : Obligations.FrameBytesReadsBackTheFrame := by
  unfold Obligations.FrameBytesReadsBackTheFrame
  intro s hb hsize
  obtain ⟨window, lo, hi, htr⟩ := exists_trailer hb hsize
  refine ⟨_, _, htr.payloadSlice (offset := 0#16) (Nat.zero_le _), htr.storedFcs, ?_⟩
  simp [hostFrameBytes, le16Bytes, htr.frame_eq]

theorem le16_eq_iff {lo hi : Byte} {v : U16} : le16 lo hi = v ↔ lo = lo8 v ∧ hi = hi8 v := by
  constructor
  · rintro rfl
    simp
  · rintro ⟨rfl, rfl⟩
    exact le16_split v

/-- Settles O44: the stored FCS equals the computed one exactly when the trailer is the FCS of the window. -/
theorem verifyAcceptsExactlySelfConsistentFrames : Obligations.VerifyAcceptsExactlySelfConsistentFrames := by
  unfold Obligations.VerifyAcceptsExactlySelfConsistentFrames
  intro s hb hsize
  obtain ⟨window, lo, hi, htr⟩ := exists_trailer hb hsize
  refine ⟨_, _, htr.storedFcs, htr.computeFcs, ?_⟩
  rw [hostMismatch, bne_eq_false_iff_eq, le16_eq_iff, htr.frame_eq]
  constructor
  · rintro ⟨rfl, rfl⟩
    exact ⟨window, rfl⟩
  · rintro ⟨p, hp⟩
    obtain ⟨rfl, hpair⟩ := List.append_inj' hp rfl
    simpa using hpair

/-- Settles O46: the assembler run on the nine lines. -/
theorem assemblerReadsTheSpecsLines : Obligations.AssemblerReadsTheSpecsLines := by
  unfold Obligations.AssemblerReadsTheSpecsLines
  decide

end Sys2Proof.Machine

/-! SUPPORT. The constructors NEW and BUILD on each side of their capacity check (40_construction.md), the frame they
leave, and which Responses carry bytes (30_encoding.md R46). -/

namespace Sys2Proof.Machine

variable {s t : State}

/-! ## What a constructor answers -/

/-- The state after a constructor that loaded the bytes `d`. -/
def State.loaded (s : State) (d : List Byte) : State := (s.loadFrame d).respond (.ok 0#16 [])

theorem exec_new_fits {d : List Byte} (h : d.length ≤ s.maxFrameBytes.toNat) :
    exec (.new d) s = .next (s.loaded d) := by
  rw [exec, execNew, if_neg (by omega)]
  rfl

theorem exec_new_over {d : List Byte} (h : s.maxFrameBytes.toNat < d.length) :
    exec (.new d) s = raise .capacityExceeded s := by
  rw [exec, execNew, if_pos h]

theorem exec_build_fits {p : List Byte} (h : p.length + 2 ≤ s.maxFrameBytes.toNat) :
    exec (.build p) s = .next (s.loaded (p ++ fcsTrailer p)) := by
  rw [exec, execBuild, if_neg (by omega)]
  rfl

theorem exec_build_over {p : List Byte} (h : s.maxFrameBytes.toNat < p.length + 2) :
    exec (.build p) s = raise .capacityExceeded s := by
  rw [exec, execBuild, if_pos h]

/-! ## The frame a constructor leaves -/

section loaded
variable {d : List Byte} (h : d.length ≤ s.maxFrameBytes.toNat)
include h

theorem length_lt_of_fits : d.length < 65536 := Nat.lt_of_le_of_lt h s.maxFrameBytes.isLt

theorem loaded_size : (s.loaded d).size.toNat = d.length := loadFrame_size_toNat s (length_lt_of_fits h)

theorem loaded_readByte (p : Nat) : (s.loaded d).readByte p = d[p]? := loadFrame_readByte s (length_lt_of_fits h) p

theorem loaded_exact : (s.loaded d).BufExact := loadFrame_exact s (length_lt_of_fits h)

end loaded

theorem loaded_eq (s : State) (d : List Byte) : s.loaded d = { s with
    buf := (s.loaded d).buf, size := (s.loaded d).size, responses := s.responses ++ [.ok 0#16 []], k := s.k + 1 } :=
  rfl

/-- Settles O20: the capacity check decides between the loaded frame and the error. -/
theorem newHoldsTheBytes : Obligations.NewHoldsTheBytes := by
  unfold Obligations.NewHoldsTheBytes
  refine ⟨fun w d hrsv hop => decode_new hrsv hop d, fun d s => ⟨fun h => ?_, fun h => exec_new_over h⟩⟩
  exact ⟨s.loaded d, exec_new_fits h, loaded_size h, loaded_readByte h, loaded_exact h, loaded_eq s d⟩

/-- A BUILD that fits loads two bytes more than its input. -/
theorem build_fits {p : List Byte} (h : p.length + 2 ≤ s.maxFrameBytes.toNat) :
    (p ++ fcsTrailer p).length ≤ s.maxFrameBytes.toNat := by
  rw [List.length_append, fcsTrailer_length]
  exact h

/-- Settles O21: the bytes loaded are the input and its trailer. -/
theorem buildAppendsTheFcs : Obligations.BuildAppendsTheFcs := by
  unfold Obligations.BuildAppendsTheFcs
  refine ⟨fun w p hrsv hop => decode_build hrsv hop p, fun p s => ⟨fun h => ?_, fun h => exec_build_over h⟩⟩
  have hfits := build_fits h
  exact ⟨s.loaded (p ++ fcsTrailer p), exec_build_fits h, by rw [loaded_size hfits, List.length_append]; rfl,
    loaded_readByte hfits, loaded_exact hfits, loaded_eq s _⟩

/-- Settles O22: both constructors load the same bytes. -/
theorem buildIsNewWithTheTrailer : Obligations.BuildIsNewWithTheTrailer := by
  unfold Obligations.BuildIsNewWithTheTrailer
  intro p s h
  have hfits := build_fits h
  refine ⟨s.loaded (p ++ fcsTrailer p), exec_build_fits h, exec_new_fits hfits, fun i hi => ?_⟩
  rw [loaded_readByte hfits, List.getElem?_append_left hi]

/-- Settles O23: the built frame is the input with its FCS as the trailer. -/
theorem builtFramesAreSelfConsistent : Obligations.BuiltFramesAreSelfConsistent := by
  unfold Obligations.BuiltFramesAreSelfConsistent
  intro p s h
  have htr : HasTrailer (s.loaded (p ++ fcsTrailer p)) p (lo8 (fcs16 p)) (hi8 (fcs16 p)) :=
    ⟨loaded_exact (build_fits h), loadFrame_frame s _⟩
  exact ⟨_, exec_build_fits h, by rw [htr.storedFcs, le16_split]; rfl, htr.computeFcs⟩

/-- Settles O24: a constructor that answers `OK` passed its check, which does not look at the frame, and then overwrote
all of the frame. -/
theorem constructorsLeaveNothingOfTheOldFrame : Obligations.ConstructorsLeaveNothingOfTheOldFrame := by
  unfold Obligations.ConstructorsLeaveNothingOfTheOldFrame
  intro i s t oldBuf oldSize hc hexec hok
  cases i with
  | new d =>
    by_cases hfits : d.length ≤ s.maxFrameBytes.toNat
    · rw [exec_new_fits hfits] at hexec
      rw [← hexec]
      exact exec_new_fits hfits
    · rw [exec_new_over (by omega), raise_eq_next] at hexec
      simp [hexec] at hok
  | build p =>
    by_cases hfits : p.length + 2 ≤ s.maxFrameBytes.toNat
    · rw [exec_build_fits hfits] at hexec
      rw [← hexec]
      exact exec_build_fits hfits
    · rw [exec_build_over (by omega), raise_eq_next] at hexec
      simp [hexec] at hok
  | length | channelId | totalL2capLength | controls | storedFcs | bufferSize | payloadStart | payloadEnd
  | payloadSlice | computeFcs => cases hc

/-! ## Which Responses carry bytes (R46) -/

/-- Every `OK` Response an outcome ends with has a result and bytes that satisfy `P`. -/
def OkSatisfies (P : U16 → List Byte → Prop) (s : State) (o : Host.Outcome State Fault Refusal) : Prop :=
  ∀ t v d, o = .next t → t.responses = s.responses ++ [.ok v d] → P v d

section OkSatisfies
variable {P : U16 → List Byte → Prop}

theorem okSatisfies_raise (e : ErrorKind) : OkSatisfies P s (raise e s) := by
  intro t v d h hr
  rw [raise_eq_next] at h
  simp [h] at hr

theorem okSatisfies_fault (f : Fault) : OkSatisfies P s (.fault f) := by
  intro t v d h
  cases h

theorem okSatisfies_answer {v : U16} {d : List Byte} (h : P v d) (hst : t.responses = s.responses) :
    OkSatisfies P s (answer v d t) := by
  intro u v' d' hu hr
  rw [answer_eq_next] at hu
  obtain ⟨rfl, rfl⟩ : v = v' ∧ d = d' := by simpa [hu, hst] using hr
  exact h

theorem okSatisfies_answerField (h : ∀ v, P v []) (e : Option ErrorKind) (p : Nat) :
    OkSatisfies P s (answerField e p s) := by
  obtain ⟨kind, -, he⟩ | ⟨v, -, -, he⟩ | ⟨-, -, he⟩ := answerField_cases e p s <;> rw [he]
  · exact okSatisfies_raise kind
  · exact okSatisfies_answer (h v) rfl
  · exact okSatisfies_fault _

end OkSatisfies

/-- What R46 says of the `OK` Response of a command. -/
def OkShape (i : Instr) (v : U16) (d : List Byte) : Prop :=
  ((∀ o, i ≠ .payloadSlice o) → d = []) ∧ (∀ o, i = .payloadSlice o → d.length = v.toNat) ∧
  (i.isConstructor = true → v = 0#16)

theorem okShape_accessor {i : Instr} (hslice : ∀ o, i ≠ .payloadSlice o) (hc : i.isConstructor = false) (v : U16) :
    OkShape i v [] :=
  ⟨fun _ => rfl, fun o ho => absurd ho (hslice o), fun h => by rw [hc] at h; cases h⟩

theorem okShape_constructor {i : Instr} (hslice : ∀ o, i ≠ .payloadSlice o) : OkShape i 0#16 [] :=
  ⟨fun _ => rfl, fun o ho => absurd ho (hslice o), fun _ => rfl⟩

theorem okShape_payloadSlice {offset v : U16} {d : List Byte} (h : d.length = v.toNat) :
    OkShape (.payloadSlice offset) v d :=
  ⟨fun hne => absurd rfl (hne offset), fun _ _ => h, fun hc => by cases hc⟩

theorem readRange_length {n p : Nat} {bytes : List Byte} (h : s.readRange p n = some bytes) : bytes.length = n := by
  induction n generalizing p bytes with
  | zero =>
    cases h
    rfl
  | succ n ih =>
    unfold State.readRange at h
    split at h
    · next b bs hb hbs =>
      cases h
      simp [ih hbs]
    · cases h

/-- Every `OK` Response a command ends with has R46's shape. -/
theorem exec_okShape (i : Instr) (s : State) : OkSatisfies (OkShape i) s (exec i s) := by
  cases i with
  | new d =>
    simp only [exec, execNew]
    split
    · exact okSatisfies_raise _
    · exact okSatisfies_answer (okShape_constructor (by simp)) rfl
  | build p =>
    simp only [exec, execBuild]
    split
    · exact okSatisfies_raise _
    · exact okSatisfies_answer (okShape_constructor (by simp)) rfl
  | length | channelId | totalL2capLength | controls | storedFcs =>
    exact okSatisfies_answerField (okShape_accessor (by simp) rfl) _ _
  | bufferSize => exact okSatisfies_answer (okShape_accessor (by simp) rfl _) rfl
  | payloadStart offset =>
    simp only [exec, execPayloadStart]
    split
    · exact okSatisfies_raise _
    · exact okSatisfies_answer (okShape_accessor (by simp) rfl _) rfl
  | payloadEnd =>
    simp only [exec, execPayloadEnd]
    split
    · exact okSatisfies_raise _
    · exact okSatisfies_answer (okShape_accessor (by simp) rfl _) rfl
  | payloadSlice offset =>
    simp only [exec, execPayloadSlice]
    split
    · exact okSatisfies_raise _
    · split
      · next bytes hread => exact okSatisfies_answer (okShape_payloadSlice (readRange_length hread)) rfl
      · exact okSatisfies_fault _
  | computeFcs =>
    simp only [exec, execComputeFcs]
    split
    · exact okSatisfies_raise _
    · split
      · exact okSatisfies_answer (okShape_accessor (by simp) rfl _) rfl
      · exact okSatisfies_fault _

/-! ## The fields of the response word (R46) -/

theorem word_result (r : Response) : r.word.extractLsb' 0 16 = r.resultField := by
  unfold Response.word
  ext i h
  simp [h, show i < 32 by omega]

theorem word_status (r : Response) : r.word.extractLsb' 16 3 = r.status := by
  unfold Response.word
  ext i h
  simp [h, show 16 + i < 32 by omega]

theorem word_rest (r : Response) : r.word.extractLsb' 19 13 = 0#13 := by
  unfold Response.word
  ext i h
  simp [BitVec.getLsbD_of_ge r.resultField (19 + i) (by omega), BitVec.getLsbD_of_ge r.status (19 + i - 16) (by omega)]

/-- No Response has the host's code 3, or the codes 6 and 7 that are given to nothing. -/
theorem status_unused (r : Response) : r.status ≠ 3#3 ∧ r.status ≠ 6#3 ∧ r.status ≠ 7#3 := by
  cases r with
  | ok v d => simp only [Response.status]; decide
  | err e => cases e <;> decide

/-- Settles O42: the word's fields are those of the Response, and each command's `OK` has its shape. -/
theorem responseWordHasItsFields : Obligations.ResponseWordHasItsFields := by
  unfold Obligations.ResponseWordHasItsFields
  exact ⟨fun r => ⟨word_result r, word_status r, word_rest r, status_unused r⟩, fun _ _ => ⟨rfl, rfl⟩,
    fun _ => ⟨rfl, rfl⟩, rfl, rfl, rfl, rfl, fun i s t v d _ hexec hr => exec_okShape i s t v d hexec hr⟩

end Sys2Proof.Machine

/-! SUPPORT. The FCS (43_fcs.md): the table is its generator's (R69), so every step of the calculation is linear over
exclusive-or and loses nothing of the state. From that its laws (R73), its equality with the bit-serial register (R72),
and the detection of changed bytes (R74). -/

namespace Sys2Proof.Machine

/-! ## The table (R69) -/

/-- The 256 literals are what the generator gives. -/
theorem tableAt_eq_generatedEntry : ∀ b : Byte, tableAt (zext16 b) = generatedEntry b := by
  decide

/-- The high bytes of the table tell its index from 0. -/
theorem eq_zero_of_hi8_tableAt : ∀ b : Byte, hi8 (tableAt (zext16 b)) = 0#8 → b = 0#8 := by
  decide

theorem tableAt_zero : tableAt (zext16 0#8) = 0#16 := by decide

/-! ## The bit-serial register is linear (R72) -/

theorem serialBit_eq (crc : U16) (bit : Bool) :
    serialBit crc bit = (crc >>> 1) ^^^ (if (crc.getLsbD 0 ^^ bit) then polyReflected else 0#16) := by
  unfold serialBit
  split <;> simp

theorem serialBit_xor (c c' : U16) (x x' : Bool) :
    serialBit (c ^^^ c') (x ^^ x') = serialBit c x ^^^ serialBit c' x' := by
  have hfeed (a b : Bool) : (if (a ^^ b) then polyReflected else 0#16) =
      (if a then polyReflected else 0#16) ^^^ (if b then polyReflected else 0#16) := by
    cases a <;> cases b <;> rfl
  have hbits : ((c ^^^ c').getLsbD 0 ^^ (x ^^ x')) = ((c.getLsbD 0 ^^ x) ^^ (c'.getLsbD 0 ^^ x')) := by
    rw [BitVec.getLsbD_xor]
    simp only [Bool.xor_assoc, Bool.xor_left_comm x]
  rw [serialBit_eq, serialBit_eq, serialBit_eq, hbits, hfeed, BitVec.ushiftRight_xor_distrib]
  ac_rfl

/-- Any list of bit positions fed to the register keeps it linear. -/
theorem foldl_serialBit_xor (b b' : Byte) (l : List Nat) (c c' : U16) :
    l.foldl (fun r j => serialBit r ((b ^^^ b').getLsbD j)) (c ^^^ c') =
      l.foldl (fun r j => serialBit r (b.getLsbD j)) c ^^^ l.foldl (fun r j => serialBit r (b'.getLsbD j)) c' := by
  induction l generalizing c c' with
  | nil => rfl
  | cons j l ih => simp only [List.foldl_cons, BitVec.getLsbD_xor, serialBit_xor, ← ih]

theorem serialByte_xor (c c' : U16) (b b' : Byte) :
    serialByte (c ^^^ c') (b ^^^ b') = serialByte c b ^^^ serialByte c' b' :=
  foldl_serialBit_xor b b' (List.range 8) c c'

/-! ## One step of the calculation is one byte into the register -/

/-- Bits of the state's own low byte meet themselves at the register's end, so they only shift it down. -/
theorem foldl_serialBit_lo8 (c : U16) : ∀ n ≤ 8,
    (List.range n).foldl (fun r j => serialBit r ((lo8 c).getLsbD j)) c = c >>> n := by
  intro n hn
  induction n with
  | zero => simp
  | succ n ih =>
    have hbit : (c >>> n).getLsbD 0 = (lo8 c).getLsbD n := by
      simp [lo8, show n < 8 by omega]
    rw [List.range_succ, List.foldl_append, ih (by omega), List.foldl_cons, List.foldl_nil, serialBit_eq, hbit]
    simp [BitVec.shiftRight_add]

theorem serialByte_lo8 (c : U16) : serialByte c (lo8 c) = c >>> 8 := foldl_serialBit_lo8 c 8 (Nat.le_refl 8)

theorem lo8_zext16 (b : Byte) : lo8 (zext16 b) = b := by
  have hle : zext16 b = le16 b 0#8 := by simp [le16, zext16]
  rw [hle, lo8_le16]

theorem hi8_zext16 (b : Byte) : hi8 (zext16 b) = 0#8 := by
  have hle : zext16 b = le16 b 0#8 := by simp [le16, zext16]
  rw [hle, hi8_le16]

theorem ushiftRight_eq_zext16_hi8 (c : U16) : c >>> 8 = zext16 (hi8 c) := by
  unfold zext16 hi8
  ext i h
  simp
  grind

/-- What a byte adds beyond the state's own low byte enters an empty register. -/
theorem serialByte_eq (c : U16) (b : Byte) : serialByte c b = serialByte 0#16 (lo8 c ^^^ b) ^^^ (c >>> 8) := by
  have hbyte : b = (lo8 c ^^^ b) ^^^ lo8 c := by
    rw [BitVec.xor_comm, ← BitVec.xor_assoc, BitVec.xor_self, BitVec.zero_xor]
  calc serialByte c b = serialByte (0#16 ^^^ c) ((lo8 c ^^^ b) ^^^ lo8 c) := by rw [BitVec.zero_xor, ← hbyte]
    _ = _ := by rw [serialByte_xor, serialByte_lo8]

/-- The generator feeds a byte's register with zero bits, which is the byte fed to the empty register. -/
theorem generatedEntry_eq_serialByte (b : Byte) : generatedEntry b = serialByte 0#16 b := by
  have hstep (c : U16) : generatorStep c = serialBit c false := by simp [generatorStep, serialBit]
  have hzeros : generatedEntry b = serialByte (zext16 b) 0#8 := by
    simp only [generatedEntry, hstep]
    rfl
  rw [hzeros, serialByte_eq, lo8_zext16, ushiftRight_eq_zext16_hi8, hi8_zext16, BitVec.xor_zero]
  exact BitVec.xor_zero

theorem fcsStep_eq_serialByte (c : U16) (b : Byte) : fcsStep c b = serialByte c b := by
  rw [fcsStep_eq, tableAt_eq_generatedEntry, generatedEntry_eq_serialByte, serialByte_eq c b]

theorem fcsFrom_eq_foldl (c : U16) (s : List Byte) : fcsFrom c s = s.foldl serialByte c := by
  induction s generalizing c with
  | nil => rfl
  | cons b bs ih => rw [fcsFrom_cons, List.foldl_cons, fcsStep_eq_serialByte, ih]

/-- Settles O40: the loop feeds the same register, byte by byte. -/
theorem fcsEqualsTheBitSerialRegister : Obligations.FcsEqualsTheBitSerialRegister := by
  unfold Obligations.FcsEqualsTheBitSerialRegister
  exact fcsFrom_eq_foldl 0#16

/-! ## One step is linear and loses nothing -/

theorem fcsStep_xor (c c' : U16) (b b' : Byte) : fcsStep (c ^^^ c') (b ^^^ b') = fcsStep c b ^^^ fcsStep c' b' := by
  simp only [fcsStep_eq_serialByte, serialByte_xor]

/-- From the initial state a step looks its byte up (R67). -/
theorem fcsStep_initial (b : Byte) : fcsStep 0#16 b = tableAt (zext16 b) := by
  simp [fcsStep_eq, lo8]

theorem tableAt_xor (a b : Byte) : tableAt (zext16 (a ^^^ b)) = tableAt (zext16 a) ^^^ tableAt (zext16 b) := by
  simpa [fcsStep_initial] using fcsStep_xor 0#16 0#16 a b

theorem eq_zero_of_tableAt {b : Byte} (h : tableAt (zext16 b) = 0#16) : b = 0#8 :=
  eq_zero_of_hi8_tableAt b (by rw [h]; rfl)

theorem tableAt_injective {a b : Byte} (h : tableAt (zext16 a) = tableAt (zext16 b)) : a = b := by
  rw [← BitVec.xor_eq_zero_iff] at h ⊢
  exact eq_zero_of_tableAt ((tableAt_xor a b).trans h)

/-- Settles O38: the table is a step from the initial state. -/
theorem tableIsLinearAndInjective : Obligations.TableIsLinearAndInjective := by
  unfold Obligations.TableIsLinearAndInjective
  exact fun a b => ⟨tableAt_xor a b, tableAt_injective⟩

/-- A zero byte takes no other state to 0: its high byte tells the low byte, and what is left is the high byte. -/
theorem eq_zero_of_fcsStep {c : U16} (h : fcsStep c 0#8 = 0#16) : c = 0#16 := by
  rw [fcsStep_eq, ushiftRight_eq_zext16_hi8, BitVec.xor_zero, BitVec.xor_eq_zero_iff] at h
  have hlo : lo8 c = 0#8 := eq_zero_of_hi8_tableAt _ (by rw [h, hi8_zext16])
  have hhi : hi8 c = 0#8 := by rw [← lo8_zext16 (hi8 c), ← h, hlo, tableAt_zero]; rfl
  rw [← le16_split c, hlo, hhi]
  rfl

theorem fcsStep_state_injective {c c' : U16} {b : Byte} (h : fcsStep c b = fcsStep c' b) : c = c' := by
  rw [← BitVec.xor_eq_zero_iff] at h ⊢
  refine eq_zero_of_fcsStep ?_
  rw [← BitVec.xor_self (x := b), fcsStep_xor, h]

theorem fcsStep_byte_injective {c : U16} {b b' : Byte} (h : fcsStep c b = fcsStep c b') : b = b' := by
  rw [← BitVec.xor_eq_zero_iff] at h ⊢
  refine eq_zero_of_tableAt ?_
  calc tableAt (zext16 (b ^^^ b')) = fcsStep (c ^^^ c) (b ^^^ b') := by rw [BitVec.xor_self, fcsStep_initial]
    _ = 0#16 := by rw [fcsStep_xor, h]

/-! ## The laws of the calculation (R73) -/

theorem fcsFrom_append (c : U16) (s t : List Byte) : fcsFrom c (s ++ t) = fcsFrom (fcsFrom c s) t := by
  induction s generalizing c with
  | nil => rfl
  | cons b bs ih => simp [ih]

theorem fcsStep_zero : fcsStep 0#16 0#8 = 0#16 := by
  rw [fcsStep_initial, tableAt_zero]

theorem fcs16_replicate_zero (n : Nat) : fcs16 (List.replicate n 0#8) = 0#16 := by
  unfold fcs16
  induction n with
  | zero => rfl
  | succ n ih => rw [List.replicate_succ, fcsFrom_cons, fcsStep_zero, ih]

theorem fcs16_zero_cons (s : List Byte) : fcs16 (0#8 :: s) = fcs16 s := by
  rw [fcs16, fcsFrom_cons, fcsStep_zero, fcs16]

theorem fcsFrom_zipWith_xor {s t : List Byte} (h : s.length = t.length) (c c' : U16) :
    fcsFrom (c ^^^ c') (List.zipWith (· ^^^ ·) s t) = fcsFrom c s ^^^ fcsFrom c' t := by
  induction s generalizing t c c' with
  | nil =>
    obtain rfl := List.eq_nil_of_length_eq_zero h.symm
    rfl
  | cons a s ih =>
    cases t with
    | nil => cases h
    | cons b t =>
      rw [List.zipWith_cons_cons, fcsFrom_cons, fcsFrom_cons, fcsFrom_cons, fcsStep_xor, ih (Nat.succ.inj h)]

theorem fcs16_zipWith_xor {s t : List Byte} (h : s.length = t.length) :
    fcs16 (List.zipWith (· ^^^ ·) s t) = fcs16 s ^^^ fcs16 t := by
  simpa [fcs16] using fcsFrom_zipWith_xor h 0#16 0#16

/-- A state's own low byte only shifts the state down. -/
theorem fcsStep_lo8 (c : U16) : fcsStep c (lo8 c) = zext16 (hi8 c) := by
  rw [fcsStep_eq_serialByte, serialByte_lo8, ushiftRight_eq_zext16_hi8]

/-- A state's own two bytes, low byte first, take it to 0. -/
theorem fcsFrom_self (c : U16) : fcsFrom c [lo8 c, hi8 c] = 0#16 := by
  have hlast := fcsStep_lo8 (zext16 (hi8 c))
  rw [lo8_zext16, hi8_zext16] at hlast
  rw [fcsFrom_cons, fcsStep_lo8, fcsFrom_cons, hlast]
  rfl

theorem fcs16_residue (p : List Byte) : fcs16 (p ++ [lo8 (fcs16 p), hi8 (fcs16 p)]) = 0#16 :=
  (fcsFrom_append 0#16 p _).trans (fcsFrom_self (fcs16 p))

/-- Settles O39. -/
theorem fcsLaws : Obligations.FcsLaws := by
  unfold Obligations.FcsLaws
  exact ⟨rfl, ⟨fcs16_replicate_zero, fcs16_zero_cons⟩, fcsStep_initial, fun _ _ => fcs16_zipWith_xor, fcs16_residue,
    fcsFrom_append 0#16⟩

/-- The window of X1, eight bytes and then the other eight. -/
theorem fcs16_vector_x1 : fcs16 ([0x0E#8, 0x00#8, 0x40#8, 0x00#8, 0x02#8, 0x00#8, 0x00#8, 0x01#8] ++
    [0x02#8, 0x03#8, 0x04#8, 0x05#8, 0x06#8, 0x07#8, 0x08#8, 0x09#8]) = 0x6138#16 := by
  have hfront : fcsFrom 0#16 [0x0E#8, 0x00#8, 0x40#8, 0x00#8, 0x02#8, 0x00#8, 0x00#8, 0x01#8] = 0x344F#16 := by decide
  rw [fcs16, fcsFrom_append, hfront]
  decide

/-- Settles O37: the loop's equation, and the calculation run on the two windows. -/
theorem fcsStepIsTheUpdateRule : Obligations.FcsStepIsTheUpdateRule := by
  unfold Obligations.FcsStepIsTheUpdateRule
  exact ⟨fcsFrom_cons, by decide, fcs16_vector_x1⟩

/-! ## A changed byte is detected (R74) -/

theorem fcsFrom_injective {c c' : U16} {s : List Byte} (h : fcsFrom c s = fcsFrom c' s) : c = c' := by
  induction s generalizing c c' with
  | nil => exact h
  | cons b bs ih => exact fcsStep_state_injective (ih h)

/-- Sequences that differ in one byte have different FCS. -/
theorem fcs16_ne_of_byte_ne (front back : List Byte) {b b' : Byte} (h : b ≠ b') :
    fcs16 (front ++ b :: back) ≠ fcs16 (front ++ b' :: back) := by
  intro heq
  rw [fcs16, fcs16, fcsFrom_append, fcsFrom_append] at heq
  exact h (fcsStep_byte_injective (fcsFrom_injective heq))

theorem fcs16_set_ne {window : List Byte} {p : Nat} {b b' : Byte} (hb : window[p]? = some b) (h : b ≠ b') :
    fcs16 window ≠ fcs16 (window.set p b') := by
  obtain ⟨hp, rfl⟩ := List.getElem?_eq_some_iff.mp hb
  have hne := fcs16_ne_of_byte_ne (window.take p) (window.drop (p + 1)) h
  rwa [← List.drop_eq_getElem_cons hp, List.take_append_drop, ← List.set_eq_take_cons_drop _ hp] at hne

theorem bit_ne_zero {j : Nat} (hj : j < 8) : 1#8 <<< j ≠ 0#8 := by
  have all : ∀ k : Fin 8, 1#8 <<< k.val ≠ 0#8 := by decide
  exact all ⟨j, hj⟩

theorem ne_flip (b : Byte) {j : Nat} (hj : j < 8) : b ≠ b ^^^ (1#8 <<< j) := by
  intro h
  exact bit_ne_zero hj (by simpa using congrArg (b ^^^ ·) h.symm)

/-- No sequence with exactly one bit set has FCS 0: it differs in one byte from a sequence of zero bytes. -/
theorem fcs16_one_bit_ne_zero (n m : Nat) {j : Nat} (hj : j < 8) :
    fcs16 (List.replicate n 0#8 ++ [1#8 <<< j] ++ List.replicate m 0#8) ≠ 0#16 := by
  have hzeros : List.replicate n 0#8 ++ 0#8 :: List.replicate m 0#8 = List.replicate (n + (m + 1)) 0#8 := by
    rw [← List.replicate_succ, List.replicate_append_replicate]
  have hne := fcs16_ne_of_byte_ne (List.replicate n 0#8) (List.replicate m 0#8) (bit_ne_zero hj)
  rw [hzeros, fcs16_replicate_zero] at hne
  rwa [List.append_assoc, List.singleton_append]

section flip
variable {s t : State} {window : List Byte} {lo hi b b' : Byte} {p : Nat}

/-- Exact frames of one size whose bytes agree away from one position are one frame with that byte replaced. -/
theorem frame_eq_set (hs : s.BufExact) (ht : t.BufExact) (hp : t.readByte p = some b')
    (hne : ∀ q, q ≠ p → t.readByte q = s.readByte q) (hsize : t.size = s.size) : t.frame = s.frame.set p b' := by
  refine List.ext_getElem? fun q => ?_
  rw [← BufExact.readByte ht, List.getElem?_set]
  split_ifs with hq hlt
  · rw [← hq, hp]
  · rw [BufExact.frame_length hs, ← hsize, ← BufExact.frame_length ht, not_lt] at hlt
    rw [BufExact.readByte ht, List.getElem?_eq_none (hq ▸ hlt)]
  · rw [hne q (Ne.symm hq), BufExact.readByte hs]

variable (h : HasTrailer s window lo hi) (ht : t.BufExact) (hset : t.frame = s.frame.set p b')
include h ht hset

theorem HasTrailer.set_window (hp : p < window.length) : HasTrailer t (window.set p b') lo hi :=
  ⟨ht, by rw [hset, h.frame_eq, List.set_append, if_pos hp]⟩

theorem HasTrailer.set_lo (hp : p = window.length) : HasTrailer t window b' hi :=
  ⟨ht, by simp [hset, h.frame_eq, hp]⟩

theorem HasTrailer.set_hi (hp : p = window.length + 1) : HasTrailer t window lo b' :=
  ⟨ht, by simp [hset, h.frame_eq, hp]⟩

/-- A replaced byte of the window changes its FCS and leaves the trailer; one of the trailer changes only that. -/
theorem HasTrailer.set_detected (hb : s.readByte p = some b) (hne : b ≠ b') :
    ∃ window' lo' hi', HasTrailer t window' lo' hi' ∧
      (if p + 2 < s.size.toNat then fcs16 window ≠ fcs16 window' ∧ le16 lo hi = le16 lo' hi'
       else fcs16 window = fcs16 window' ∧ le16 lo hi ≠ le16 lo' hi') := by
  have hp : p < s.size.toNat := by
    by_contra hge
    simp [State.readByte, hge] at hb
  rw [h.size_eq] at hp ⊢
  obtain hwin | hlo | hhi : p < window.length ∨ p = window.length ∨ p = window.length + 1 := by omega
  · rw [h.readByte_window hwin] at hb
    refine ⟨_, _, _, h.set_window ht hset hwin, ?_⟩
    rw [if_pos (by omega)]
    exact ⟨fcs16_set_ne hb hne, rfl⟩
  · obtain rfl : lo = b := by simpa [hlo, h.readByte_lo] using hb
    refine ⟨_, _, _, h.set_lo ht hset hlo, ?_⟩
    rw [if_neg (by omega)]
    exact ⟨rfl, fun heq => hne (by simpa using congrArg lo8 heq)⟩
  · obtain rfl : hi = b := by simpa [hhi, h.readByte_hi] using hb
    refine ⟨_, _, _, h.set_hi ht hset hhi, ?_⟩
    rw [if_neg (by omega)]
    exact ⟨rfl, fun heq => hne (by simpa using congrArg hi8 heq)⟩

end flip

/-- Settles O41: the flip replaces one byte of the frame, and both commands answer from window and trailer. -/
theorem singleBitFlipsAreDetected : Obligations.SingleBitFlipsAreDetected := by
  unfold Obligations.SingleBitFlipsAreDetected
  refine ⟨fun n m j hj => fcs16_one_bit_ne_zero n m hj, fun s t p j b hs ht hsize hsizes hj hsp htp hne => ?_⟩
  obtain ⟨window, lo, hi, htr⟩ := exists_trailer hs hsize
  have hset := frame_eq_set hs ht htp hne hsizes
  obtain ⟨window', lo', hi', htr', hdetect⟩ := htr.set_detected ht hset hsp (ne_flip b hj)
  exact ⟨_, _, _, _, htr.computeFcs, htr'.computeFcs, htr.storedFcs, htr'.storedFcs, hdetect⟩

/-! ## Reset -/

/-- Settles O1: without a byte every accessor but BUFFER_SIZE fails its size check, whatever its offset. -/
theorem resetIsTheEmptyFrame : Obligations.ResetIsTheEmptyFrame := by
  unfold Obligations.ResetIsTheEmptyFrame
  refine ⟨rfl, fun p => by simp [State.readByte, State.reset], fcsTable_length, tableAt_eq_generatedEntry, rfl, rfl,
    fun i hc hne => ?_⟩
  cases i with
  | new d => cases hc
  | build p => cases hc
  | bufferSize => exact absurd rfl hne
  | length => exact headerField_small (s := State.reset) 0 (by decide)
  | channelId => exact headerField_small (s := State.reset) 2 (by decide)
  | totalL2capLength => exact headerField_small (s := State.reset) 4 (by decide)
  | controls => exact headerField_small (s := State.reset) 6 (by decide)
  | storedFcs => exact execStoredFcs_small (by decide)
  | payloadStart offset => exact execPayloadStart_raises (offsetError_small (s := State.reset) offset (by decide))
  | payloadEnd => exact execPayloadEnd_small (s := State.reset) (by decide)
  | payloadSlice offset => exact execPayloadSlice_raises (offsetError_small (s := State.reset) offset (by decide))
  | computeFcs => exact execComputeFcs_small (by decide)

end Sys2Proof.Machine
